-- ==== Sys2Proof/Word.lean ====
section
/-! DEFINITION. The 16-bit word and its two numeric readings (00_scope.md R8, 10_state.md R20). -/

namespace Sys2Proof

/-- A word: the 16-bit content of every register and every memory cell (R20). Addition and subtraction of words wrap. -/
abbrev Word := BitVec 16

/-- A byte of a program image (R53). Inside the machine no byte is addressable (R50). -/
abbrev Byte := BitVec 8

/-- `u(v)`: the unsigned reading of a word, in 0..65535 (R8). -/
def unsigned (v : Word) : Int := (v.toNat : Int)

/-- `s(v)`: the signed two's-complement reading of a word, in −32768..32767 (R8). -/
def signed (v : Word) : Int := v.toInt

/-- `wrap(n)`: the word whose unsigned reading is `n mod 65536`, for any integer `n` (R8). -/
def wrap (n : Int) : Word := BitVec.ofInt 16 n

end Sys2Proof
end

