-- ==== Sys2Proof/Config.lean ====
section
/-! DEFINITION. What the spec fixes for every machine (R6) and the types of the parameters it takes (R7).
The default VALUES of `NUM` and `COST` stand in Machine/Flags.lean and Machine/Timing.lean; the value of `LIT_WRITE`
is carried by the machine's state, so that statements about every state hold for both values. -/

namespace Sys2Proof

/-- Memory size in words (R6, R28). -/
def Config.memoryWords : Nat := 65536

/-- `LIT_WRITE` (R7, 92_eei_decisions.md D7, open): what a write through a next-word literal operand does. -/
inductive LitWrite where
  /-- the write changes nothing (the spec's default) -/
  | discard
  /-- the write lands in the literal's own trailing word in memory -/
  | writeThrough
deriving DecidableEq, Repr

/-- What an arithmetic, logic or shift instruction computes: the word written to `b`, and the new EX where the
instruction writes EX (R150, R162). -/
structure NumResult where
  result : Word
  newEx  : Option Word
deriving DecidableEq, Repr

/-- One entry of `NUM` (R162): a total function of `(vb, va, ex)`, the two operand values and the old EX. -/
abbrev NumFn := Word → Word → Word → NumResult

/-- `NUM` (R7, R162): one total function per arithmetic, logic or shift mnemonic. -/
structure Num where
  add : NumFn
  sub : NumFn
  mul : NumFn
  mli : NumFn
  div : NumFn
  dvi : NumFn
  mod : NumFn
  mdi : NumFn
  and : NumFn
  bor : NumFn
  xor : NumFn
  shr : NumFn
  asr : NumFn
  shl : NumFn
  adx : NumFn
  sbx : NumFn

end Sys2Proof
end

