-- ==== Sys2Proof/Machine/Flags.lean ====
section
/-! DEFINITION. `NUM`: the result and the overflow word EX of every arithmetic, logic and shift instruction
(42_arithmetic.md, 43_logic_shift.md; the default value of the parameter, R162, log entry 4). EX is the machine's only
flag-like register (R24). -/

namespace Sys2Proof.Machine

/-- `ADD` (R151): EX is the unsigned carry. -/
def numAdd : NumFn := fun vb va _ =>
  let t := unsigned vb + unsigned va
  { result := wrap t, newEx := some (if t > 65535 then 0x0001 else 0x0000) }

/-- `SUB` (R152): EX is 0xFFFF on a borrow. -/
def numSub : NumFn := fun vb va _ =>
  let t := unsigned vb - unsigned va
  { result := wrap t, newEx := some (if t < 0 then 0xFFFF else 0x0000) }

/-- `MUL` (R153): EX is the high word of the unsigned product. -/
def numMul : NumFn := fun vb va _ =>
  let t := unsigned vb * unsigned va
  { result := wrap t, newEx := some (wrap (t >>> (16 : Nat))) }

/-- `MLI` (R154): EX is bits 31..16 of the two's-complement product. -/
def numMli : NumFn := fun vb va _ =>
  let t := signed vb * signed va
  { result := wrap t, newEx := some (wrap (t >>> (16 : Nat))) }

/-- `DIV` (R155): EX is the first 16 fraction bits of the quotient; division by zero gives 0 and EX 0. -/
def numDiv : NumFn := fun vb va _ =>
  if unsigned va = 0 then { result := 0x0000, newEx := some 0x0000 }
  else
    { result := wrap (unsigned vb / unsigned va)
      newEx := some (wrap ((unsigned vb * 65536) / unsigned va)) }

/-- `DVI` (R156): signed, rounding toward zero; division by zero gives 0 and EX 0. -/
def numDvi : NumFn := fun vb va _ =>
  if unsigned va = 0 then { result := 0x0000, newEx := some 0x0000 }
  else
    { result := wrap ((signed vb).tdiv (signed va))
      newEx := some (wrap ((signed vb * 65536).tdiv (signed va))) }

/-- `MOD` (R157): EX is not written; modulo zero gives 0. -/
def numMod : NumFn := fun vb va _ =>
  if unsigned va = 0 then { result := 0x0000, newEx := none }
  else { result := wrap (unsigned vb % unsigned va), newEx := none }

/-- `MDI` (R158): the sign of the dividend; EX is not written; modulo zero gives 0. -/
def numMdi : NumFn := fun vb va _ =>
  if unsigned va = 0 then { result := 0x0000, newEx := none }
  else { result := wrap (signed vb - signed va * (signed vb).tdiv (signed va)), newEx := none }

/-- `AND` (R170): EX is not written. -/
def numAnd : NumFn := fun vb va _ => { result := vb &&& va, newEx := none }

/-- `BOR` (R171): EX is not written. -/
def numBor : NumFn := fun vb va _ => { result := vb ||| va, newEx := none }

/-- `XOR` (R172): EX is not written. -/
def numXor : NumFn := fun vb va _ => { result := vb ^^^ va, newEx := none }

/-- `SHR` (R173): the whole word `a` is the count; EX is the bits shifted out, left-aligned. -/
def numShr : NumFn := fun vb va _ =>
  { result := wrap (unsigned vb >>> va.toNat)
    newEx := some (wrap ((unsigned vb <<< (16 : Nat)) >>> va.toNat)) }

/-- `ASR` (R174): the sign bit is replicated; EX is computed from the unsigned value as for SHR. -/
def numAsr : NumFn := fun vb va _ =>
  { result := wrap (signed vb >>> va.toNat)
    newEx := some (wrap ((unsigned vb <<< (16 : Nat)) >>> va.toNat)) }

/-- `SHL` (R175): EX is the bits shifted out at the top. -/
def numShl : NumFn := fun vb va _ =>
  let t := unsigned vb <<< va.toNat
  { result := wrap t, newEx := some (wrap (t >>> (16 : Nat))) }

/-- `ADX` (R159): the old EX is added as an unsigned word; EX is 1 on a carry of any size. -/
def numAdx : NumFn := fun vb va ex =>
  let t := unsigned vb + unsigned va + unsigned ex
  { result := wrap t, newEx := some (if t > 65535 then 0x0001 else 0x0000) }

/-- `SBX` (R160): the old EX is added as an unsigned word; EX tells underflow (0xFFFF) from overflow (0x0001). -/
def numSbx : NumFn := fun vb va ex =>
  let t := unsigned vb - unsigned va + unsigned ex
  { result := wrap t, newEx := some (if t < 0 then 0xFFFF else if t > 65535 then 0x0001 else 0x0000) }

/-- The default value of `NUM` (R162). -/
def num : Num where
  add := numAdd
  sub := numSub
  mul := numMul
  mli := numMli
  div := numDiv
  dvi := numDvi
  mod := numMod
  mdi := numMdi
  and := numAnd
  bor := numBor
  xor := numXor
  shr := numShr
  asr := numAsr
  shl := numShl
  adx := numAdx
  sbx := numSbx

end Sys2Proof.Machine
end

