-- ==== Sys2Proof/Syntax.lean ====
section
/-! DEFINITION. Registers, operands and instructions as syntax (10_state.md, 30_encoding.md). -/

namespace Sys2Proof

/-- The eight general registers, in the order of their numbers 0..7 (R21). -/
inductive GReg where
  | A | B | C | X | Y | Z | I | J
deriving DecidableEq, Repr

/-- The eleven registers of the machine (R26). -/
inductive Reg where
  | gen (r : GReg)
  | sp
  | pc
  | ex
deriving DecidableEq, Repr

/-- The two operand slots: `A` is bits 15..10 of the instruction word, `B` bits 9..5 (R11, R71). -/
inductive Slot where
  | A | B
deriving DecidableEq, Repr

/-- An operand: one constructor per row of the operand-code table (R74), with its trailing word where the row
consumes one (R76). The table is the same for both slots (R74, R75); the slot decides what code 0x18 means. -/
inductive Operand where
  /-- codes 0x00..0x07: a general register (R115) -/
  | reg (r : GReg)
  /-- codes 0x08..0x0F: memory at the address in a general register (R116) -/
  | regInd (r : GReg)
  /-- codes 0x10..0x17: memory at general register + next word (R117) -/
  | regIndNext (r : GReg) (nw : Word)
  /-- code 0x18: PUSH in slot B (R118), POP in slot A (R119) -/
  | pushPop
  /-- code 0x19: PEEK, memory at SP (R120) -/
  | peek
  /-- code 0x1A: PICK n, memory at SP + next word (R121) -/
  | pick (nw : Word)
  /-- code 0x1B: the register SP (R122) -/
  | sp
  /-- code 0x1C: the register PC (R123) -/
  | pc
  /-- code 0x1D: the register EX (R124) -/
  | ex
  /-- code 0x1E: memory at the address in the next word (R126) -/
  | memNext (nw : Word)
  /-- code 0x1F: the next word as a literal (R125) -/
  | litNext (nw : Word)
  /-- codes 0x20..0x3F, slot A only: the literal `k − 1` in −1..30, code 0x20 + k (R77, R127) -/
  | inlineLit (k : BitVec 5)
deriving DecidableEq, Repr

/-- The 27 two-operand operations of the instruction table (R80). -/
inductive BasicOp where
  | set | add | sub | mul | mli | div | dvi | mod | mdi
  | and | bor | xor | shr | asr | shl
  | ifb | ifc | ife | ifn | ifg | ifa | ifl | ifu
  | adx | sbx | sti | std
deriving DecidableEq, Repr

/-- The keys of `COST` (R7): the mnemonics of the instruction table and the halt word. -/
inductive Mnemonic where
  | basic (op : BasicOp)
  | jsr
  | halt
deriving DecidableEq, Repr

/-- An instruction: one constructor per row of the opcode table (R80, R81, R82). In `op b a` the first operand is
`b` (slot B, the destination), the second `a` (slot A), as in the source order `OP b, a` (R11, R90). -/
inductive Instr where
  | set (b a : Operand)
  | add (b a : Operand)
  | sub (b a : Operand)
  | mul (b a : Operand)
  | mli (b a : Operand)
  | div (b a : Operand)
  | dvi (b a : Operand)
  | mod (b a : Operand)
  | mdi (b a : Operand)
  | and (b a : Operand)
  | bor (b a : Operand)
  | xor (b a : Operand)
  | shr (b a : Operand)
  | asr (b a : Operand)
  | shl (b a : Operand)
  | ifb (b a : Operand)
  | ifc (b a : Operand)
  | ife (b a : Operand)
  | ifn (b a : Operand)
  | ifg (b a : Operand)
  | ifa (b a : Operand)
  | ifl (b a : Operand)
  | ifu (b a : Operand)
  | adx (b a : Operand)
  | sbx (b a : Operand)
  | sti (b a : Operand)
  | std (b a : Operand)
  | jsr (a : Operand)
  /-- a halt word with its `a` field, which nothing looks at (R82, R197) -/
  | halt (field : BitVec 6)
deriving DecidableEq, Repr

/-- The word formats (R71, R72) with their operands: what decoding builds an instruction from and encoding
takes it apart into. -/
inductive Shape where
  /-- the basic format -/
  | basic (op : BasicOp) (b a : Operand)
  /-- the special format with operation code 0x01, the one special instruction of the table (R81) -/
  | jsr (a : Operand)
  /-- the special format with operation code 0x00 (R82) -/
  | halt (field : BitVec 6)
deriving DecidableEq, Repr

end Sys2Proof
end

