-- ==== Sys2Proof/WellFormed.lean ====
section
/-! DEFINITION. Which instructions have an encoding. The one check: slot B has five bits and so no inline literal
(30_encoding.md R75, R84). Every other combination of operands is legal with every operation (R84). -/

namespace Sys2Proof

/-- An operand that slot B can hold: any but an inline literal (R75). -/
def Operand.fitsSlotB : Operand → Bool
  | .inlineLit _ => false
  | .reg _ | .regInd _ | .regIndNext _ _ | .pushPop | .peek | .pick _ | .sp | .pc | .ex | .memNext _ | .litNext _ => true

/-- An instruction that some words encode (R75, R84). -/
def Instr.wellFormed : Instr → Bool
  | .set b _ | .add b _ | .sub b _ | .mul b _ | .mli b _ | .div b _ | .dvi b _ | .mod b _ | .mdi b _
  | .and b _ | .bor b _ | .xor b _ | .shr b _ | .asr b _ | .shl b _
  | .ifb b _ | .ifc b _ | .ife b _ | .ifn b _ | .ifg b _ | .ifa b _ | .ifl b _ | .ifu b _
  | .adx b _ | .sbx b _ | .sti b _ | .std b _ => b.fitsSlotB
  | .jsr _ => true
  | .halt _ => true

end Sys2Proof
end

