-- ==== Sys2Proof/Decode.lean ====
section
/-! DEFINITION. Decoding of words into instructions, total and refusing by name, and the encoder written from the
same tables (30_encoding.md). -/

namespace Sys2Proof

/-! ### The fields of an instruction word (R71, R72, R73): what reading a word back recovers of the codes packed (R87) -/

/-- Bits 4..0: the operation code of the basic format; zero selects the special format (R73). -/
def fieldO (w : Word) : BitVec 5 := w.extractLsb' 0 5

/-- Bits 9..5: the operand-B code of the basic format (R71), the operation code of the special format (R72). -/
def fieldB (w : Word) : BitVec 5 := w.extractLsb' 5 5

/-- Bits 15..10: the operand-A code of both formats (R71, R72). -/
def fieldA (w : Word) : BitVec 6 := w.extractLsb' 10 6

/-! ### Register numbers (R21) and operand codes (R74) -/

/-- Register numbers: A=0, B=1, C=2, X=3, Y=4, Z=5, I=6, J=7 (R21). -/
def GReg.code : GReg → BitVec 3
  | .A => 0 | .B => 1 | .C => 2 | .X => 3 | .Y => 4 | .Z => 5 | .I => 6 | .J => 7

/-- The register with a given number (R21). -/
def GReg.ofCode (c : BitVec 3) : GReg :=
  match c.toNat with
  | 0 => .A | 1 => .B | 2 => .C | 3 => .X | 4 => .Y | 5 => .Z | 6 => .I | _ => .J

/-- Whether an operand code consumes a trailing word: 0x10..0x17, 0x1A, 0x1E, 0x1F and no other (R76). -/
def consumesNext (c : BitVec 6) : Bool :=
  (0x10 ≤ c.toNat && c.toNat ≤ 0x17) || c.toNat == 0x1A || c.toNat == 0x1E || c.toNat == 0x1F

/-- The row of the operand-code table a code selects, given the next word for the rows that consume one (R74). -/
def operandOfCode (c : BitVec 6) (nw : Word) : Operand :=
  if c.toNat < 0x08 then .reg (GReg.ofCode (c.setWidth 3))
  else if c.toNat < 0x10 then .regInd (GReg.ofCode (c.setWidth 3))
  else if c.toNat < 0x18 then .regIndNext (GReg.ofCode (c.setWidth 3)) nw
  else if c.toNat = 0x18 then .pushPop
  else if c.toNat = 0x19 then .peek
  else if c.toNat = 0x1A then .pick nw
  else if c.toNat = 0x1B then .sp
  else if c.toNat = 0x1C then .pc
  else if c.toNat = 0x1D then .ex
  else if c.toNat = 0x1E then .memNext nw
  else if c.toNat = 0x1F then .litNext nw
  else .inlineLit (c.setWidth 5)

/-- One operand read from its code and the words that follow, with the words left over; `none` only when a trailing
word is wanted and there is none (R74, R76). -/
def decodeOperand (c : BitVec 6) (ws : List Word) : Option (Operand × List Word) :=
  if consumesNext c then
    match ws with
    | [] => none
    | nw :: rest => some (operandOfCode c nw, rest)
  else some (operandOfCode c 0, ws)

/-! ### The instruction table (R80, R81) -/

/-- The basic operation code in bits 4..0 (R80). -/
def BasicOp.code : BasicOp → BitVec 5
  | .set => 0x01 | .add => 0x02 | .sub => 0x03 | .mul => 0x04 | .mli => 0x05 | .div => 0x06 | .dvi => 0x07
  | .mod => 0x08 | .mdi => 0x09 | .and => 0x0A | .bor => 0x0B | .xor => 0x0C | .shr => 0x0D | .asr => 0x0E
  | .shl => 0x0F | .ifb => 0x10 | .ifc => 0x11 | .ife => 0x12 | .ifn => 0x13 | .ifg => 0x14 | .ifa => 0x15
  | .ifl => 0x16 | .ifu => 0x17 | .adx => 0x1A | .sbx => 0x1B | .sti => 0x1E | .std => 0x1F

/-- The basic operation a code stands for; none for 0x00, which selects the special format, and for 0x18, 0x19, 0x1C
and 0x1D, which are illegal (R80, R83). -/
def BasicOp.ofCode (c : BitVec 5) : Option BasicOp :=
  match c.toNat with
  | 0x01 => some .set | 0x02 => some .add | 0x03 => some .sub | 0x04 => some .mul | 0x05 => some .mli
  | 0x06 => some .div | 0x07 => some .dvi | 0x08 => some .mod | 0x09 => some .mdi | 0x0A => some .and
  | 0x0B => some .bor | 0x0C => some .xor | 0x0D => some .shr | 0x0E => some .asr | 0x0F => some .shl
  | 0x10 => some .ifb | 0x11 => some .ifc | 0x12 => some .ife | 0x13 => some .ifn | 0x14 => some .ifg
  | 0x15 => some .ifa | 0x16 => some .ifl | 0x17 => some .ifu | 0x1A => some .adx | 0x1B => some .sbx
  | 0x1E => some .sti | 0x1F => some .std
  | _ => none

/-- The table's "conditional" property: true exactly for the IFx family, codes 0x10..0x17 (R180). -/
def BasicOp.conditional : BasicOp → Bool
  | .ifb | .ifc | .ife | .ifn | .ifg | .ifa | .ifl | .ifu => true
  | .set | .add | .sub | .mul | .mli | .div | .dvi | .mod | .mdi | .and | .bor | .xor | .shr | .asr | .shl
  | .adx | .sbx | .sti | .std => false

/-- The instruction of a basic operation and its two operands (R80). -/
def Instr.ofBasic (op : BasicOp) (b a : Operand) : Instr :=
  match op with
  | .set => .set b a | .add => .add b a | .sub => .sub b a | .mul => .mul b a | .mli => .mli b a
  | .div => .div b a | .dvi => .dvi b a | .mod => .mod b a | .mdi => .mdi b a | .and => .and b a
  | .bor => .bor b a | .xor => .xor b a | .shr => .shr b a | .asr => .asr b a | .shl => .shl b a
  | .ifb => .ifb b a | .ifc => .ifc b a | .ife => .ife b a | .ifn => .ifn b a | .ifg => .ifg b a
  | .ifa => .ifa b a | .ifl => .ifl b a | .ifu => .ifu b a | .adx => .adx b a | .sbx => .sbx b a
  | .sti => .sti b a | .std => .std b a

/-- An instruction taken apart into its format and operands (R71, R72). -/
def Instr.shape : Instr → Shape
  | .set b a => .basic .set b a | .add b a => .basic .add b a | .sub b a => .basic .sub b a
  | .mul b a => .basic .mul b a | .mli b a => .basic .mli b a | .div b a => .basic .div b a
  | .dvi b a => .basic .dvi b a | .mod b a => .basic .mod b a | .mdi b a => .basic .mdi b a
  | .and b a => .basic .and b a | .bor b a => .basic .bor b a | .xor b a => .basic .xor b a
  | .shr b a => .basic .shr b a | .asr b a => .basic .asr b a | .shl b a => .basic .shl b a
  | .ifb b a => .basic .ifb b a | .ifc b a => .basic .ifc b a | .ife b a => .basic .ife b a
  | .ifn b a => .basic .ifn b a | .ifg b a => .basic .ifg b a | .ifa b a => .basic .ifa b a
  | .ifl b a => .basic .ifl b a | .ifu b a => .basic .ifu b a | .adx b a => .basic .adx b a
  | .sbx b a => .basic .sbx b a | .sti b a => .basic .sti b a | .std b a => .basic .std b a
  | .jsr a => .jsr a
  | .halt f => .halt f

/-- Whether the instruction belongs to the IFx family (R180). -/
def Instr.conditional (i : Instr) : Bool :=
  match i.shape with
  | .basic op _ _ => op.conditional
  | .jsr _ => false
  | .halt _ => false

/-- Whether the instruction is a halt word, which is never skipped (R113, R197). -/
def Instr.isHalt (i : Instr) : Bool :=
  match i.shape with
  | .basic _ _ _ => false
  | .jsr _ => false
  | .halt _ => true

/-- The key of `COST` for an instruction (R7). -/
def Instr.mnemonic (i : Instr) : Mnemonic :=
  match i.shape with
  | .basic op _ _ => .basic op
  | .jsr _ => .jsr
  | .halt _ => .halt

/-! ### Decoding -/

/-- Why words do not decode. -/
inductive DecodeError where
  /-- there is no instruction word at all -/
  | noWord
  /-- the basic operation code is not in the table (R83) -/
  | unknownBasic (code : BitVec 5)
  /-- the special operation code is not in the table and not the halt code (R83) -/
  | unknownSpecial (code : BitVec 5)
  /-- an operand wants a trailing word and the words have run out -/
  | missingTrailingWord
deriving DecidableEq, Repr

/-- Reads one instruction from a list of words and answers it with the words left over. Classification and look-up
come before any operand (R73, R113); operand A takes its trailing word first, then operand B (R76, R114). -/
def decode : List Word → Except DecodeError (Instr × List Word)
  | [] => .error .noWord
  | w :: ws =>
    if fieldO w = 0 then
      if fieldB w = 0 then .ok (.halt (fieldA w), ws)
      else if fieldB w = 1 then
        match decodeOperand (fieldA w) ws with
        | none => .error .missingTrailingWord
        | some (a, ws1) => .ok (.jsr a, ws1)
      else .error (.unknownSpecial (fieldB w))
    else
      match BasicOp.ofCode (fieldO w) with
      | none => .error (.unknownBasic (fieldO w))
      | some op =>
        match decodeOperand (fieldA w) ws with
        | none => .error .missingTrailingWord
        | some (a, ws1) =>
          match decodeOperand ((fieldB w).setWidth 6) ws1 with
          | none => .error .missingTrailingWord
          | some (b, ws2) => .ok (Instr.ofBasic op b a, ws2)

/-- The length in words of the instruction that begins with `w`, from `w` alone (R78). -/
def lengthOfWord (w : Word) : Nat :=
  if fieldO w = 0 then 1 + (consumesNext (fieldA w)).toNat
  else 1 + (consumesNext (fieldA w)).toNat + (consumesNext ((fieldB w).setWidth 6)).toNat

/-- The words of an instruction whose bits are `w`, bit 0 the least significant bit of the first word; bits at
`nbits` and above are zero. Three words, the longest instruction (R70). -/
def tableWords (nbits w : Nat) : List Word :=
  [BitVec.ofNat 16 (w % 2 ^ nbits), BitVec.ofNat 16 ((w % 2 ^ nbits) >>> 16), BitVec.ofNat 16 ((w % 2 ^ nbits) >>> 32)]

/-- The instruction the decoder reads from bits `w`, `nbits` of them given. -/
def decodeTableWord (nbits w : Nat) : Option Instr :=
  match decode (tableWords nbits w) with
  | .ok (i, _) => some i
  | .error _ => none

/-! ### Encoding (R86) -/

/-- The code an operand has in the operand-code table (R74); an inline literal `k − 1` has code 0x20 + k (R77). -/
def Operand.code : Operand → BitVec 6
  | .reg r => 0x00 + r.code.setWidth 6
  | .regInd r => 0x08 + r.code.setWidth 6
  | .regIndNext r _ => 0x10 + r.code.setWidth 6
  | .pushPop => 0x18
  | .peek => 0x19
  | .pick _ => 0x1A
  | .sp => 0x1B
  | .pc => 0x1C
  | .ex => 0x1D
  | .memNext _ => 0x1E
  | .litNext _ => 0x1F
  | .inlineLit k => 0x20 + k.setWidth 6

/-- The trailing words of an operand: one or none (R76). -/
def Operand.trailing : Operand → List Word
  | .regIndNext _ nw => [nw]
  | .pick nw => [nw]
  | .memNext nw => [nw]
  | .litNext nw => [nw]
  | .reg _ | .regInd _ | .pushPop | .peek | .sp | .pc | .ex | .inlineLit _ => []

/-- How many trailing words an operand consumes (R76). -/
def Operand.trailingCount (o : Operand) : Nat := o.trailing.length

/-- How many trailing words an instruction has: `n` of R111 once its operands are resolved. The `a` field of a halt
word is not resolved (R197). -/
def Instr.trailingCount (i : Instr) : Nat :=
  match i.shape with
  | .basic _ b a => a.trailingCount + b.trailingCount
  | .jsr a => a.trailingCount
  | .halt _ => 0

/-- The basic format: opcode | operand-B code << 5 | operand-A code << 10 (R71). -/
def packBasic (o bc : BitVec 5) (ac : BitVec 6) : Word :=
  o.setWidth 16 ||| (bc.setWidth 16 <<< 5) ||| (ac.setWidth 16 <<< 10)

/-- The special format: opcode << 5 | operand-A code << 10 (R72). -/
def packSpecial (o : BitVec 5) (ac : BitVec 6) : Word :=
  (o.setWidth 16 <<< 5) ||| (ac.setWidth 16 <<< 10)

/-- The words of an instruction: its instruction word, operand A's trailing word, operand B's (R86, R94). The operand-B
code is cut to its five bits, which loses nothing of a well-formed instruction (R75). -/
def encode (i : Instr) : List Word :=
  match i.shape with
  | .basic op b a => packBasic op.code (b.code.setWidth 5) a.code :: (a.trailing ++ b.trailing)
  | .jsr a => packSpecial 1 a.code :: a.trailing
  | .halt f => [packSpecial 0 f]

/-! ### Reading a word stream back (R87) -/

/-- The codes of an instruction word read back, R87's `w[4:0]`, `w[9:5]` and `w[15:10]`: `o`, `bc` and `ac` of a word that
`packBasic` packed; 0, `o` and `ac` of one that `packSpecial` packed. -/
def readBack (w : Word) : BitVec 5 × BitVec 5 × BitVec 6 := (fieldO w, fieldB w, fieldA w)

/-- A word stream read back as instructions, at most `n` of them (R87). DESIGN CHOICE (log entry 14): the spec does not say how
a disassembler passes a halt word or an illegal word. As in the core's decoding, a halt word is one word here, although R78
gives the length 2 (`lengthOfWord`) to one whose `a` field would consume a trailing word; an illegal word, or a stream that
ends before an instruction's trailing words, ends the reading with the decoder's error; words after the `n`th instruction are
left unread. -/
def disassemble : Nat → List Word → Except DecodeError (List Instr)
  | _, [] => .ok []
  | 0, _ :: _ => .ok []
  | n + 1, w :: ws =>
    match decode (w :: ws) with
    | .error e => .error e
    | .ok (i, rest) =>
      match disassemble n rest with
      | .error e => .error e
      | .ok is => .ok (i :: is)

end Sys2Proof
end

