-- ==== Sys2Proof/Machine/State.lean ====
section
/-! DEFINITION. The machine's state as plain data, its reset value, and the reasons a step can stop (10_state.md). -/

namespace Sys2Proof.Machine

/-- One word of memory at an address: the addressable unit is the word (R50), so a cell is a word and not a byte
(log entry 1). -/
abbrev MemCell := Nat × Word

/-- The 65536 words of a memory (R28), as the list of the cells that differ from 0x0000 (log entry 1). -/
abbrev Memory := List MemCell

/-- Why the machine stops with a fault. -/
inductive Fault where
  /-- `UnknownOpcode(p, w)` (R210, R211): the word `w` at PC = `p` is not in the instruction table. Raised by the step at
  look-up, before any state change; the state stays as it was. Safe: it is the spec's own fault. -/
  | unknownOpcode (p w : Word)
deriving DecidableEq, Repr

/-- Why the model has no meaning for an instruction. -/
inductive Refusal where
  /-- The instruction has no meaning yet; only an arm of `exec` raises it, and no arm does. Safe. -/
  | notModelled (mnemonic : String)
deriving DecidableEq, Repr

/-- Everything the spec gives the machine (10_state.md), and one field of the model's own, `litWrite`. -/
structure State where
  /-- general register A, number 0 (R21) -/
  regA : Word
  /-- general register B, number 1 (R21) -/
  regB : Word
  /-- general register C, number 2 (R21) -/
  regC : Word
  /-- general register X, number 3 (R21) -/
  regX : Word
  /-- general register Y, number 4 (R21) -/
  regY : Word
  /-- general register Z, number 5 (R21) -/
  regZ : Word
  /-- general register I, number 6 (R21) -/
  regI : Word
  /-- general register J, number 7 (R21) -/
  regJ : Word
  /-- program counter: between steps the address of the next instruction word (R22) -/
  pc : Word
  /-- stack pointer (R23) -/
  sp : Word
  /-- overflow register (R24) -/
  ex : Word
  /-- `MEM`, the live memory (R28) -/
  mem : Memory
  /-- the skip flag: the last executed conditional test was false (R29) -/
  skip : Bool
  /-- the cycle counter, unbounded (R30) -/
  cycles : Nat
  /-- `IMG`, the last-loaded-program snapshot (R31) -/
  img : Memory
  /-- The parameter `LIT_WRITE` (R7), carried here because `step` takes no other argument: nothing writes it, and a
  statement about every state holds for both values (log entry 2). -/
  litWrite : LitWrite
deriving DecidableEq, Repr

/-- The machine right after reset with nothing loaded (R33, R34): every register 0x0000, `MEM` and `IMG` all 0x0000,
no cycle counted, nothing to skip, `LIT_WRITE` at the spec's default. -/
def State.reset : State where
  regA := 0
  regB := 0
  regC := 0
  regX := 0
  regY := 0
  regZ := 0
  regI := 0
  regJ := 0
  pc := 0
  sp := 0
  ex := 0
  mem := []
  skip := false
  cycles := 0
  img := []
  litWrite := .discard

end Sys2Proof.Machine
end

