-- ==== Sys2Proof/Machine/Ops.lean ====
section
/-! DEFINITION. The named operations over memory, registers and the counters of a step, raising the one exception, and
the fetch (10_state.md, 20_memory.md, 40_step_and_operands.md, 60_exceptions.md). -/

namespace Sys2Proof.Machine

/-! ### Memory as a list in canonical form (log entry 1) -/

/-- What an address reads as that no entry lists: 0x0000, the content of every word an image did not reach (R33, R34). -/
def Memory.unlisted : Word := 0

/-- The word at an address (R51): that of the first entry for it, else the word of an unlisted address. -/
def Memory.read : Memory → Nat → Word
  | [], _ => Memory.unlisted
  | (k, v) :: rest, a => if k = a then v else Memory.read rest a

/-- Takes every entry for an address out. -/
def Memory.erase : Memory → Nat → Memory
  | [], _ => []
  | (k, v) :: rest, a => if k = a then Memory.erase rest a else (k, v) :: Memory.erase rest a

/-- Puts an entry in front of the first entry with a higher address. -/
def Memory.insert : Memory → Nat → Word → Memory
  | [], a, v => [(a, v)]
  | (k, w) :: rest, a, v => if a < k then (a, v) :: (k, w) :: rest else (k, w) :: Memory.insert rest a v

/-- Stores a word (R51). Storing what an unlisted address reads as leaves no entry. -/
def Memory.write (m : Memory) (a : Nat) (v : Word) : Memory :=
  if v = Memory.unlisted then m.erase a else (m.erase a).insert a v

/-- Every address of the list is at least `lo`, the addresses rise strictly, and no entry is a default word. -/
def Memory.wfFrom : Nat → Memory → Bool
  | _, [] => true
  | lo, (k, v) :: rest => decide (lo ≤ k) && decide (v ≠ Memory.unlisted) && Memory.wfFrom (k + 1) rest

/-- Every address of the list exists: it is below 65536 (R50). -/
def Memory.inRange : Memory → Bool
  | [] => true
  | (k, _) :: rest => decide (k < Config.memoryWords) && Memory.inRange rest

/-- The canonical form: addresses below 65536 strictly rising, no entry equal to what an unlisted address reads as. -/
def Memory.wf (m : Memory) : Bool := Memory.wfFrom 0 m && Memory.inRange m

/-- The memory that holds `ws` from address `base` on and 0x0000 elsewhere, in canonical form (R231). -/
def Memory.ofWords (base : Nat) : List Word → Memory
  | [] => []
  | w :: ws => if w = Memory.unlisted then Memory.ofWords (base + 1) ws else (base, w) :: Memory.ofWords (base + 1) ws

/-- `MemRead(addr, 1)` (R9, R51): total, no side effect. -/
def State.readMem (s : State) (addr : Word) : Word := s.mem.read addr.toNat

/-- `MemWrite(addr, 1, v)` (R9, R51): total. -/
def State.writeMem (s : State) (addr v : Word) : State := { s with mem := s.mem.write addr.toNat v }

/-! ### Registers (R9, R21 to R24): no aliases, none hardwired -/

/-- `x[r]` for a general register (R21). -/
def State.readGen (s : State) : GReg → Word
  | .A => s.regA
  | .B => s.regB
  | .C => s.regC
  | .X => s.regX
  | .Y => s.regY
  | .Z => s.regZ
  | .I => s.regI
  | .J => s.regJ

/-- `x[r] <- v` for a general register (R21). -/
def State.writeGen (s : State) (r : GReg) (v : Word) : State :=
  match r with
  | .A => { s with regA := v }
  | .B => { s with regB := v }
  | .C => { s with regC := v }
  | .X => { s with regX := v }
  | .Y => { s with regY := v }
  | .Z => { s with regZ := v }
  | .I => { s with regI := v }
  | .J => { s with regJ := v }

/-- `x[r]` (R9). -/
def State.readReg (s : State) : Reg → Word
  | .gen r => s.readGen r
  | .sp => s.sp
  | .pc => s.pc
  | .ex => s.ex

/-- `x[r] <- v` (R9). -/
def State.writeReg (s : State) (r : Reg) (v : Word) : State :=
  match r with
  | .gen g => s.writeGen g v
  | .sp => { s with sp := v }
  | .pc => { s with pc := v }
  | .ex => { s with ex := v }

/-! ### The bookkeeping of a step (R111) -/

/-- PC moves past the instruction word and `n` trailing words (R128). -/
def State.advance (s : State) (n : Nat) : State := { s with pc := s.pc + 1 + BitVec.ofNat 16 n }

/-- The cycle counter grows by `n` (R134). -/
def State.addCycles (s : State) (n : Nat) : State := { s with cycles := s.cycles + n }

/-- Deferred SP adjustments, applied in order (R130). -/
def State.applyEffects : State → List Word → State
  | s, [] => s
  | s, d :: ds => State.applyEffects { s with sp := s.sp + d } ds

/-- Sets the skip flag (R29). -/
def State.setSkip (s : State) : State := { s with skip := true }

/-- The step of a set skip flag over an instruction with `n` trailing words that is not a halt word (R129): PC moves past
the whole instruction, one cycle is counted, and the flag stays set over a conditional and is cleared over any other. -/
def State.passOver (s : State) (n : Nat) (conditional : Bool) : State :=
  { (s.advance n).addCycles 1 with skip := conditional }

/-- `passOver` over an instruction of the default table. -/
def skipOver (i : Instr) (s : State) : State := s.passOver i.trailingCount i.conditional

/-! ### The one exception (60_exceptions.md) -/

/-- Taking the exception `UnknownOpcode(p, w)` (R9, R210 to R212, R216): the step ends with the fault; nothing is saved
and control goes nowhere inside the machine. There is no return from it (R217). -/
def raiseUnknownOpcode (p w : Word) : Host.Outcome State Fault Refusal := .fault (.unknownOpcode p w)

/-! ### Fetch (R112, R114) -/

/-- The word at PC and the two words after it, the addresses wrapping (R57, R76, R112). Reading has no side effect
(R51), so it does not matter that a shorter instruction uses fewer of them. -/
def State.fetch (s : State) : List Word := [s.readMem s.pc, s.readMem (s.pc + 1), s.readMem (s.pc + 2)]

end Sys2Proof.Machine
end

