-- ==== Sys2Proof/Machine/Operands.lean ====
section
/-! DEFINITION. Operand handles, the resolution of every operand form, and what happens to the state before an
instruction operates on its handles (00_scope.md R10, 40_step_and_operands.md R114 to R134). -/

namespace Sys2Proof.Machine

/-- An operand handle (R10). -/
inductive Handle where
  /-- `Reg(r)`: a register -/
  | reg (r : Reg)
  /-- `Ram(addr)`: a memory word -/
  | ram (addr : Word)
  /-- `Lit(v)`: a literal word with no storage -/
  | lit (v : Word)
deriving DecidableEq, Repr

/-- The word of an inline literal: code 0x20 + k holds `k − 1`, in −1..30 (R77, R127). -/
def inlineValue (k : BitVec 5) : Word := wrap ((k.toNat : Int) - 1)

/-- Resolves one operand in the state at the start of the step (R114 to R127). `n` is the number of trailing words
consumed before this operand, so that its own trailing word, if any, stands at `PC + n + 1` (R114). -/
def resolve (slot : Slot) (n : Nat) (o : Operand) (s : State) : Handle :=
  match o with
  | .reg r => .reg (.gen r)
  | .regInd r => .ram (s.readGen r)
  | .regIndNext r nw => .ram (s.readGen r + nw)
  | .pushPop =>
    match slot with
    | .B => .ram (s.sp - 1)
    | .A => .ram s.sp
  | .peek => .ram s.sp
  | .pick nw => .ram (s.sp + nw)
  | .sp => .reg .sp
  | .pc => .reg .pc
  | .ex => .reg .ex
  | .memNext nw => .ram nw
  | .litNext nw =>
    match s.litWrite with
    | .discard => .lit nw
    | .writeThrough => .ram (s.pc + BitVec.ofNat 16 (n + 1))
  | .inlineLit k => .lit (inlineValue k)

/-- The deferred SP adjustment of one operand: −1 for PUSH (R118), +1 for POP (R119), none otherwise. -/
def spEffect (slot : Slot) (o : Operand) : List Word :=
  match o with
  | .pushPop =>
    match slot with
    | .B => [-1]
    | .A => [1]
  | .reg _ | .regInd _ | .regIndNext _ _ | .peek | .pick _ | .sp | .pc | .ex | .memNext _ | .litNext _ | .inlineLit _ => []

/-- `rd(h)` (R10, R131). -/
def rd (h : Handle) (s : State) : Word :=
  match h with
  | .reg r => s.readReg r
  | .ram a => s.readMem a
  | .lit v => v

/-- `wr(h, v)` (R10, R132): a write through a literal changes nothing. -/
def wr (h : Handle) (v : Word) (s : State) : State :=
  match h with
  | .reg r => s.writeReg r v
  | .ram a => s.writeMem a v
  | .lit _ => s

/-- The handle of operand A, which is resolved first (R114). -/
def handleA (a : Operand) (s : State) : Handle := resolve .A 0 a s

/-- The handle of operand B, whose trailing word comes after operand A's (R76, R114). -/
def handleB (b a : Operand) (s : State) : Handle := resolve .B a.trailingCount b s

/-- The memory word operand B stands for, where it stands for one: the address a write to `b` stores to. -/
def storeAddress (b a : Operand) (s : State) : Option Word :=
  match handleB b a s with
  | .reg _ => none
  | .ram addr => some addr
  | .lit _ => none

/-- The state a two-operand instruction operates on (R111): PC past the whole instruction (R128), one cycle for each
trailing word (R134), the SP adjustments applied, operand A's first (R130). -/
def prepareBasic (b a : Operand) (s : State) : State :=
  ((s.advance (a.trailingCount + b.trailingCount)).addCycles (a.trailingCount + b.trailingCount)).applyEffects
    (spEffect .A a ++ spEffect .B b)

/-- The state a one-operand instruction operates on (R111). -/
def prepareSpecial (a : Operand) (s : State) : State :=
  ((s.advance a.trailingCount).addCycles a.trailingCount).applyEffects (spEffect .A a)

end Sys2Proof.Machine
end

