-- ==== Sys2Proof/Machine/Timing.lean ====
section
/-! DEFINITION. `COST`, the cycles of each executed instruction without its trailing words (70_reset_and_hazards.md R241,
log entry 5). Nothing but the cycle counter depends on it. -/

namespace Sys2Proof.Machine

/-- The default value of `COST` (R7, R241). A skipped instruction costs one cycle (R129) and each trailing word of an
executed one another (R134); neither is counted here. -/
def cost : Mnemonic → Nat
  | .basic .set => 1
  | .basic .add | .basic .sub | .basic .mul | .basic .mli => 2
  | .basic .div | .basic .dvi | .basic .mod | .basic .mdi => 3
  | .basic .and | .basic .bor | .basic .xor | .basic .shr | .basic .asr | .basic .shl => 1
  | .basic .ifb | .basic .ifc | .basic .ife | .basic .ifn | .basic .ifg | .basic .ifa | .basic .ifl | .basic .ifu => 2
  | .basic .adx | .basic .sbx => 3
  | .basic .sti | .basic .std => 2
  | .jsr => 3
  | .halt => 0

/-- The cycles of an executed instruction are counted (R111, R134). -/
def State.charge (s : State) (m : Mnemonic) : State := s.addCycles (cost m)

end Sys2Proof.Machine
end

