-- ==== Sys2Proof/Machine/Arithmetic.lean ====
section
/-! DEFINITION. ADD, SUB, MUL, MLI, DIV, DVI, MOD, MDI, ADX and SBX, and the shape they share with the logic and shift
instructions (42_arithmetic.md). -/

namespace Sys2Proof.Machine

/-- The new EX is written where the instruction has one (R150). -/
def State.writeEx (s : State) : Option Word → State
  | none => s
  | some v => { s with ex := v }

/-- The shape of every arithmetic, logic and shift instruction (R150), over the handles in the prepared state: both
operands and EX are read, then `b` is written, then EX, so that with `b` = EX the overflow word wins. -/
def operateOn (f : NumFn) (hB hA : Handle) (s : State) : State :=
  let r := f (rd hB s) (rd hA s) s.ex
  (wr hB r.result s).writeEx r.newEx

/-- `operateOn` over the operands' handles. -/
def operate (f : NumFn) (b a : Operand) (s : State) : State :=
  operateOn f (handleB b a s) (handleA a s) (prepareBasic b a s)

/-- `ADD b, a` (R151). -/
def execAdd (b a : Operand) (s : State) : Host.Outcome State Fault Refusal :=
  .next ((operate num.add b a s).charge (.basic .add))

/-- `SUB b, a` (R152). -/
def execSub (b a : Operand) (s : State) : Host.Outcome State Fault Refusal :=
  .next ((operate num.sub b a s).charge (.basic .sub))

/-- `MUL b, a` (R153). -/
def execMul (b a : Operand) (s : State) : Host.Outcome State Fault Refusal :=
  .next ((operate num.mul b a s).charge (.basic .mul))

/-- `MLI b, a` (R154). -/
def execMli (b a : Operand) (s : State) : Host.Outcome State Fault Refusal :=
  .next ((operate num.mli b a s).charge (.basic .mli))

/-- `DIV b, a` (R155). -/
def execDiv (b a : Operand) (s : State) : Host.Outcome State Fault Refusal :=
  .next ((operate num.div b a s).charge (.basic .div))

/-- `DVI b, a` (R156). -/
def execDvi (b a : Operand) (s : State) : Host.Outcome State Fault Refusal :=
  .next ((operate num.dvi b a s).charge (.basic .dvi))

/-- `MOD b, a` (R157). -/
def execMod (b a : Operand) (s : State) : Host.Outcome State Fault Refusal :=
  .next ((operate num.mod b a s).charge (.basic .mod))

/-- `MDI b, a` (R158). -/
def execMdi (b a : Operand) (s : State) : Host.Outcome State Fault Refusal :=
  .next ((operate num.mdi b a s).charge (.basic .mdi))

/-- `ADX b, a` (R159). -/
def execAdx (b a : Operand) (s : State) : Host.Outcome State Fault Refusal :=
  .next ((operate num.adx b a s).charge (.basic .adx))

/-- `SBX b, a` (R160). -/
def execSbx (b a : Operand) (s : State) : Host.Outcome State Fault Refusal :=
  .next ((operate num.sbx b a s).charge (.basic .sbx))

end Sys2Proof.Machine
end

