-- ==== Sys2Proof/Machine/Conditional.lean ====
section
/-! DEFINITION. The conditional family IFB, IFC, IFE, IFN, IFG, IFA, IFL and IFU (44_conditional.md). What a set skip flag
does to the next instruction is `skipOver` of Machine/Ops.lean. -/

namespace Sys2Proof.Machine

/-- The shape of every conditional (R180), over the handles in the prepared state: both operands are read and none
written, and the skip flag is set if the test `test vb va` is false. -/
def testOn (test : Word → Word → Bool) (hB hA : Handle) (s : State) : State :=
  if test (rd hB s) (rd hA s) then s else s.setSkip

/-- `testOn` over the operands' handles; operand side effects happen in the prepared state. -/
def testAndSkip (test : Word → Word → Bool) (b a : Operand) (s : State) : State :=
  testOn test (handleB b a s) (handleA a s) (prepareBasic b a s)

/-- The test of IFB (R181): `(b & a) ≠ 0`. -/
def testIfb (vb va : Word) : Bool := decide (vb &&& va ≠ 0)

/-- `IFB b, a` (R181). -/
def execIfb (b a : Operand) (s : State) : Host.Outcome State Fault Refusal :=
  .next ((testAndSkip testIfb b a s).charge (.basic .ifb))

/-- The test of IFC (R182): `(b & a) = 0`. -/
def testIfc (vb va : Word) : Bool := decide (vb &&& va = 0)

/-- `IFC b, a` (R182). -/
def execIfc (b a : Operand) (s : State) : Host.Outcome State Fault Refusal :=
  .next ((testAndSkip testIfc b a s).charge (.basic .ifc))

/-- The test of IFE (R183): `b = a`. -/
def testIfe (vb va : Word) : Bool := decide (vb = va)

/-- `IFE b, a` (R183). -/
def execIfe (b a : Operand) (s : State) : Host.Outcome State Fault Refusal :=
  .next ((testAndSkip testIfe b a s).charge (.basic .ife))

/-- The test of IFN (R184): `b ≠ a`. -/
def testIfn (vb va : Word) : Bool := decide (vb ≠ va)

/-- `IFN b, a` (R184). -/
def execIfn (b a : Operand) (s : State) : Host.Outcome State Fault Refusal :=
  .next ((testAndSkip testIfn b a s).charge (.basic .ifn))

/-- The test of IFG (R185): `b > a`, unsigned. -/
def testIfg (vb va : Word) : Bool := decide (unsigned vb > unsigned va)

/-- `IFG b, a` (R185). -/
def execIfg (b a : Operand) (s : State) : Host.Outcome State Fault Refusal :=
  .next ((testAndSkip testIfg b a s).charge (.basic .ifg))

/-- The test of IFA (R186): `b > a`, signed. -/
def testIfa (vb va : Word) : Bool := decide (signed vb > signed va)

/-- `IFA b, a` (R186). -/
def execIfa (b a : Operand) (s : State) : Host.Outcome State Fault Refusal :=
  .next ((testAndSkip testIfa b a s).charge (.basic .ifa))

/-- The test of IFL (R187): `b < a`, unsigned. -/
def testIfl (vb va : Word) : Bool := decide (unsigned vb < unsigned va)

/-- `IFL b, a` (R187). -/
def execIfl (b a : Operand) (s : State) : Host.Outcome State Fault Refusal :=
  .next ((testAndSkip testIfl b a s).charge (.basic .ifl))

/-- The test of IFU (R188): `b < a`, signed. -/
def testIfu (vb va : Word) : Bool := decide (signed vb < signed va)

/-- `IFU b, a` (R188). -/
def execIfu (b a : Operand) (s : State) : Host.Outcome State Fault Refusal :=
  .next ((testAndSkip testIfu b a s).charge (.basic .ifu))

end Sys2Proof.Machine
end

