-- ==== Sys2Proof/Machine/LogicShift.lean ====
section
/-! DEFINITION. AND, BOR, XOR, SHR, ASR and SHL (43_logic_shift.md). -/

namespace Sys2Proof.Machine

/-- `AND b, a` (R170). -/
def execAnd (b a : Operand) (s : State) : Host.Outcome State Fault Refusal :=
  .next ((operate num.and b a s).charge (.basic .and))

/-- `BOR b, a` (R171). -/
def execBor (b a : Operand) (s : State) : Host.Outcome State Fault Refusal :=
  .next ((operate num.bor b a s).charge (.basic .bor))

/-- `XOR b, a` (R172). -/
def execXor (b a : Operand) (s : State) : Host.Outcome State Fault Refusal :=
  .next ((operate num.xor b a s).charge (.basic .xor))

/-- `SHR b, a` (R173). -/
def execShr (b a : Operand) (s : State) : Host.Outcome State Fault Refusal :=
  .next ((operate num.shr b a s).charge (.basic .shr))

/-- `ASR b, a` (R174). -/
def execAsr (b a : Operand) (s : State) : Host.Outcome State Fault Refusal :=
  .next ((operate num.asr b a s).charge (.basic .asr))

/-- `SHL b, a` (R175). -/
def execShl (b a : Operand) (s : State) : Host.Outcome State Fault Refusal :=
  .next ((operate num.shl b a s).charge (.basic .shl))

end Sys2Proof.Machine
end

