-- ==== Sys2Proof/Machine/Move.lean ====
section
/-! DEFINITION. SET, STI and STD (41_move.md). -/

namespace Sys2Proof.Machine

/-- What SET, STI and STD share (R140 to R142), over the handles in the prepared state: `b <- a`; EX is not written. -/
def copyOn (hB hA : Handle) (s : State) : State := wr hB (rd hA s) s

/-- `copyOn` over the operands' handles. -/
def copy (b a : Operand) (s : State) : State := copyOn (handleB b a s) (handleA a s) (prepareBasic b a s)

/-- I and J move by `d` (R141, R142). -/
def State.bumpIJ (s : State) (d : Word) : State := { s with regI := s.regI + d, regJ := s.regJ + d }

/-- `SET b, a` (R140). -/
def execSet (b a : Operand) (s : State) : Host.Outcome State Fault Refusal :=
  .next ((copy b a s).charge (.basic .set))

/-- `STI b, a` (R141): the copy, then I and J are incremented. -/
def execSti (b a : Operand) (s : State) : Host.Outcome State Fault Refusal :=
  .next (((copy b a s).bumpIJ 1).charge (.basic .sti))

/-- `STD b, a` (R142): the copy, then I and J are decremented. -/
def execStd (b a : Operand) (s : State) : Host.Outcome State Fault Refusal :=
  .next (((copy b a s).bumpIJ (-1)).charge (.basic .std))

end Sys2Proof.Machine
end

