-- ==== Sys2Proof/Machine/Special.lean ====
section
/-! DEFINITION. JSR and the halt word (45_special.md). -/

namespace Sys2Proof.Machine

/-- Pushes a word: SP is decremented, then the word is stored at SP (R196, R200). -/
def State.push (s : State) (v : Word) : State := { s with sp := s.sp - 1 }.writeMem (s.sp - 1) v

/-- A call over the operand's handle in the prepared state (R196): the target is read, the return address pushed, PC
set. -/
def callOn (hA : Handle) (s : State) : State := { s.push s.pc with pc := rd hA s }

/-- `callOn` over the operand's handle. -/
def call (a : Operand) (s : State) : State := callOn (handleA a s) (prepareSpecial a s)

/-- `JSR a` (R196). -/
def execJsr (a : Operand) (s : State) : Host.Outcome State Fault Refusal :=
  .next ((call a s).charge .jsr)

/-- The halt word (R197): no register, no memory word, not `skip`, not `cycles` changes, and PC still points at it. The
host's three outcomes have none for `Halt`, which is no fault (R224): a halted machine steps to the same state for
ever (log entry 3). -/
def execHalt (_field : BitVec 6) (s : State) : Host.Outcome State Fault Refusal := .next s

end Sys2Proof.Machine
end

