-- ==== Sys2Proof/Machine/Dispatch.lean ====
section
/-! DEFINITION. One arm per constructor of Instr: what each instruction does once it is fetched, looked up and not
skipped (R111, R133). -/

namespace Sys2Proof.Machine

def exec (i : Instr) (s : State) : Host.Outcome State Fault Refusal :=
  match i with
  | .set b a => Sys2Proof.Machine.execSet b a s
  | .add b a => Sys2Proof.Machine.execAdd b a s
  | .sub b a => Sys2Proof.Machine.execSub b a s
  | .mul b a => Sys2Proof.Machine.execMul b a s
  | .mli b a => Sys2Proof.Machine.execMli b a s
  | .div b a => Sys2Proof.Machine.execDiv b a s
  | .dvi b a => Sys2Proof.Machine.execDvi b a s
  | .mod b a => Sys2Proof.Machine.execMod b a s
  | .mdi b a => Sys2Proof.Machine.execMdi b a s
  | .and b a => Sys2Proof.Machine.execAnd b a s
  | .bor b a => Sys2Proof.Machine.execBor b a s
  | .xor b a => Sys2Proof.Machine.execXor b a s
  | .shr b a => Sys2Proof.Machine.execShr b a s
  | .asr b a => Sys2Proof.Machine.execAsr b a s
  | .shl b a => Sys2Proof.Machine.execShl b a s
  | .ifb b a => Sys2Proof.Machine.execIfb b a s
  | .ifc b a => Sys2Proof.Machine.execIfc b a s
  | .ife b a => Sys2Proof.Machine.execIfe b a s
  | .ifn b a => Sys2Proof.Machine.execIfn b a s
  | .ifg b a => Sys2Proof.Machine.execIfg b a s
  | .ifa b a => Sys2Proof.Machine.execIfa b a s
  | .ifl b a => Sys2Proof.Machine.execIfl b a s
  | .ifu b a => Sys2Proof.Machine.execIfu b a s
  | .adx b a => Sys2Proof.Machine.execAdx b a s
  | .sbx b a => Sys2Proof.Machine.execSbx b a s
  | .sti b a => Sys2Proof.Machine.execSti b a s
  | .std b a => Sys2Proof.Machine.execStd b a s
  | .jsr a => Sys2Proof.Machine.execJsr a s
  | .halt field => Sys2Proof.Machine.execHalt field s

end Sys2Proof.Machine
end

