-- ==== Sys2Proof/Machine/Params.lean ====
section
/-! DEFINITION. The parameters the model takes as arguments (00_scope.md R7): `IST`, `NUM` and `COST`, with the spec's
defaults (log entries 9, 4, 5). The fourth, `LIT_WRITE`, is a field of the state (log entry 2). `stepWith` of
Machine/Engine.lean is the step under any of them. -/

namespace Sys2Proof.Machine

/-- An entry of `IST.basic` (R7, R12, R180): what a two-operand code does over the handles of operands B and A, in the
state with PC past the instruction and the SP adjustments applied (R111, R133); its key in `COST`; and whether it is
conditional. `NUM` is handed to it. -/
structure BasicEntry (κ : Type) where
  mnemonic    : κ
  conditional : Bool
  behaviour   : Num → Handle → Handle → State → State

/-- An entry of `IST.special`: the same over the one operand A. -/
structure SpecialEntry (κ : Type) where
  mnemonic    : κ
  conditional : Bool
  behaviour   : Num → Handle → State → State

/-- `IST` (R7): two partial maps from operation codes. Neither is asked for code 0, which selects the special format in
the one (R73) and is the halt code in the other (R113). -/
structure Ist (κ : Type) where
  basic   : BitVec 5 → Option (BasicEntry κ)
  special : BitVec 5 → Option (SpecialEntry κ)

/-- The parameters (R7), with mnemonics of any type `κ`: a table may have other mnemonics than the default one. -/
structure Params (κ : Type) where
  ist  : Ist κ
  num  : Num
  cost : κ → Nat

/-- What a two-operand entry does to the state at the start of its step, not skipped (R111). -/
def runBasic {κ : Type} (P : Params κ) (e : BasicEntry κ) (b a : Operand) (s : State) : State :=
  (e.behaviour P.num (handleB b a s) (handleA a s) (prepareBasic b a s)).addCycles (P.cost e.mnemonic)

/-- What a one-operand entry does to the state at the start of its step, not skipped (R111). -/
def runSpecial {κ : Type} (P : Params κ) (e : SpecialEntry κ) (a : Operand) (s : State) : State :=
  (e.behaviour P.num (handleA a s) (prepareSpecial a s)).addCycles (P.cost e.mnemonic)

/-! ### The spec's defaults -/

/-- The behaviours of the default table (R80; 41_move.md, 42_arithmetic.md, 43_logic_shift.md, 44_conditional.md). -/
def basicBehaviour (op : BasicOp) (n : Num) : Handle → Handle → State → State :=
  match op with
  | .set => copyOn
  | .sti => fun hB hA s => (copyOn hB hA s).bumpIJ 1
  | .std => fun hB hA s => (copyOn hB hA s).bumpIJ (-1)
  | .add => operateOn n.add
  | .sub => operateOn n.sub
  | .mul => operateOn n.mul
  | .mli => operateOn n.mli
  | .div => operateOn n.div
  | .dvi => operateOn n.dvi
  | .mod => operateOn n.mod
  | .mdi => operateOn n.mdi
  | .and => operateOn n.and
  | .bor => operateOn n.bor
  | .xor => operateOn n.xor
  | .shr => operateOn n.shr
  | .asr => operateOn n.asr
  | .shl => operateOn n.shl
  | .adx => operateOn n.adx
  | .sbx => operateOn n.sbx
  | .ifb => testOn testIfb
  | .ifc => testOn testIfc
  | .ife => testOn testIfe
  | .ifn => testOn testIfn
  | .ifg => testOn testIfg
  | .ifa => testOn testIfa
  | .ifl => testOn testIfl
  | .ifu => testOn testIfu

/-- The entry of a basic instruction of the default table (R80). -/
def basicEntry (op : BasicOp) : BasicEntry Mnemonic :=
  { mnemonic := .basic op, conditional := op.conditional, behaviour := basicBehaviour op }

/-- The entry of JSR, the one special instruction of the default table (R81). -/
def jsrEntry : SpecialEntry Mnemonic :=
  { mnemonic := .jsr, conditional := false, behaviour := fun _ => callOn }

/-- The default `IST` (R7, R80, R81). -/
def defaultIst : Ist Mnemonic where
  basic o := (BasicOp.ofCode o).map basicEntry
  special o := if o = 1 then some jsrEntry else none

/-- Every parameter at the spec's default (R7). -/
def defaultParams : Params Mnemonic := { ist := defaultIst, num := num, cost := cost }

end Sys2Proof.Machine
end

