-- ==== Sys2Proof/Machine/Engine.lean ====
section
/-! DEFINITION. The step (40_step_and_operands.md R111): look-up first, then the skip test, then the instruction; once for
any parameters, `stepWith`, and once over the syntax of the default table, `stepOnce`. Laws/Params.lean proves that the two
agree at the defaults. -/

namespace Sys2Proof.Machine

/-- One step of the core (R111). The word at PC is fetched and looked up; an illegal word faults, also with `skip` set
(R113). A halt word halts, also with `skip` set (R113, R197). With `skip` set any other instruction is stepped over
(R129); otherwise it is executed (R133). -/
def stepOnce (s : State) : Host.Outcome State Fault Refusal :=
  match decode s.fetch with
  | .error _ => raiseUnknownOpcode s.pc (s.readMem s.pc)
  | .ok (i, _) => if s.skip && !i.isHalt then .next (skipOver i s) else exec i s

/-- The operand of code `c` in an instruction at PC whose earlier operands took `n` trailing words (R74, R114). Where the
code consumes no trailing word the word read is not used. -/
def State.operandAt (s : State) (c : BitVec 6) (n : Nat) : Operand :=
  operandOfCode c (s.readMem (s.pc + BitVec.ofNat 16 (n + 1)))

/-- One step of the core under the parameters `P` (R111, R7), for any table, any `NUM` and any `COST`; `LIT_WRITE` is read
from the state (log entry 2). -/
def stepWith {κ : Type} (P : Params κ) (s : State) : Host.Outcome State Fault Refusal :=
  let w := s.readMem s.pc
  if fieldO w = 0 then
    if fieldB w = 0 then execHalt (fieldA w) s
    else
      match P.ist.special (fieldB w) with
      | none => raiseUnknownOpcode s.pc w
      | some e =>
        let a := s.operandAt (fieldA w) 0
        .next (if s.skip then s.passOver a.trailingCount e.conditional else runSpecial P e a s)
  else
    match P.ist.basic (fieldO w) with
    | none => raiseUnknownOpcode s.pc w
    | some e =>
      let a := s.operandAt (fieldA w) 0
      let b := s.operandAt ((fieldB w).setWidth 6) a.trailingCount
      .next (if s.skip then s.passOver (a.trailingCount + b.trailingCount) e.conditional else runBasic P e b a s)

/-- Stores words at consecutive addresses from `addr` on, the addresses wrapping (R57). -/
def State.writeWords : State → Word → List Word → State
  | s, _, [] => s
  | s, addr, w :: ws => State.writeWords (s.writeMem addr w) (addr + 1) ws

end Sys2Proof.Machine
end

