-- ==== Sys2Proof/Machine/Step.lean ====
section
/-! DEFINITION. The step function and the placing of one instruction where it fetches. -/

namespace Sys2Proof.Machine

/-- One step of the machine: `stepOnce` (R111). -/
def step (s : State) : Host.Outcome State Fault Refusal := stepOnce s

/-- `s` with the instruction whose bits are `w` (`nbits` of them given, the bits above zero) stored at PC and the two
words after it, and nothing to skip, so that the next step runs exactly that instruction (log entry 6). -/
def State.withFetchWord (s : State) (nbits w : Nat) : State :=
  { s.writeWords s.pc (tableWords nbits w) with skip := false }

end Sys2Proof.Machine
end

