-- ==== Sys2Proof/Machine/HostOps.lean ====
section
/-! DEFINITION. What the host can do to the machine between steps: load an image, reset, step, run, and read
(10_state.md R36, 20_memory.md R66, 70_reset_and_hazards.md R230 to R235). -/

namespace Sys2Proof.Machine

/-! ### Images (R53, R231, R232) -/

/-- Why the loader refuses an image (R232). -/
inductive LoadError where
  /-- the image has an odd number of bytes -/
  | oddBytes
  /-- the image has more than 65536 words -/
  | tooLong
deriving DecidableEq, Repr

/-- The words of a byte stream, each two bytes with the high byte first; `none` for an odd number of bytes (R53). -/
def wordsOfBytes : List Byte → Option (List Word)
  | [] => some []
  | [_] => none
  | hi :: lo :: rest =>
    match wordsOfBytes rest with
    | none => none
    | some ws => some (BitVec.ofNat 16 (hi.toNat * 256 + lo.toNat) :: ws)

/-- The bytes of an image's words, high byte first, with no header and no padding (R53, R99). -/
def bytesOfWords : List Word → List Byte
  | [] => []
  | w :: ws => BitVec.ofNat 8 (w.toNat / 256) :: BitVec.ofNat 8 (w.toNat % 256) :: bytesOfWords ws

/-- The loader's reading of an image: its words, or the refusal (R231, R232). -/
def readImage (bytes : List Byte) : Except LoadError (List Word) :=
  match wordsOfBytes bytes with
  | none => .error .oddBytes
  | some ws => if Config.memoryWords < ws.length then .error .tooLong else .ok ws

/-- Loading the words of an image (R231): `MEM` and `IMG` become the image followed by 0x0000; the registers, `skip` and
`cycles` keep their values. -/
def State.loadWords (s : State) (ws : List Word) : State :=
  { s with mem := Memory.ofWords 0 ws, img := Memory.ofWords 0 ws }

/-- The host's load-image (R231); an image the loader refuses changes no state (R232). -/
def State.loadImage (s : State) (bytes : List Byte) : State :=
  match readImage bytes with
  | .error _ => s
  | .ok ws => s.loadWords ws

/-! ### Reset (R230) -/

/-- The host's reset, in any state (R230): every register 0x0000, `MEM` restored from `IMG`, the cycle counter zero,
nothing to skip. `IMG` stays, and so does the parameter `LIT_WRITE`. -/
def State.hostReset (s : State) : State :=
  { State.reset with mem := s.img, img := s.img, litWrite := s.litWrite }

/-- A launch: load, then reset (R233). -/
def State.launch (s : State) (bytes : List Byte) : State := (s.loadImage bytes).hostReset

/-! ### Reading (R36): no effect on the state -/

/-- read-register (R36, R234). -/
def State.hostReadRegister (s : State) (r : Reg) : Word := s.readReg r

/-- read-memory-cell (R36, R234). -/
def State.hostReadMemory (s : State) (addr : Word) : Word := s.readMem addr

/-- get-cycle-count (R30, R36, R234). -/
def State.hostCycleCount (s : State) : Nat := s.cycles

/-! ### Runs (R136) -/

/-- The low ten bits of the word are zero: a halt word, whatever its `a` field (R82). -/
def isHaltWord (w : Word) : Bool := w &&& 0x03FF == 0

/-- How a run stands after at most a given number of steps (R136). -/
inductive RunEnd where
  /-- the steps are used up (the host's `stop`, R135); stepping can resume from `s` -/
  | stopped (s : State)
  /-- normal end: the word at PC of `s` is a halt word -/
  | halted (s : State)
  /-- abnormal end: `UnknownOpcode(p, w)` in the unchanged state `s` (R211) -/
  | faulted (p w : Word) (s : State)
  /-- the model refused; no instruction of this model does -/
  | refused (r : Refusal) (s : State)
deriving DecidableEq, Repr

/-- A run of at most `n` steps of the step function `f`: it ends at the first step that halts or faults (R136). -/
def runOf (f : State → Host.Outcome State Fault Refusal) : Nat → State → RunEnd
  | 0, s => .stopped s
  | n + 1, s =>
    if isHaltWord (s.readMem s.pc) then .halted s
    else
      match f s with
      | .next s' => runOf f n s'
      | .fault (.unknownOpcode p w) => .faulted p w s
      | .refused r => .refused r s

/-- A run of at most `n` steps of the machine. -/
def runFor (n : Nat) (s : State) : RunEnd := runOf step n s

/-- A run of at most `n` steps under the parameters `P` (R7). -/
def runWith {κ : Type} (P : Params κ) (n : Nat) (s : State) : RunEnd := runOf (stepWith P) n s

/-- The state a run leaves. -/
def RunEnd.state : RunEnd → State
  | .stopped s => s
  | .halted s => s
  | .faulted _ _ s => s
  | .refused _ s => s

/-- The host's operations (R234) by what they do to the state. `start n` stands for `start` and the `stop` that comes
after `n` steps; `stop`, `is-running` and the reads change nothing. -/
inductive HostOp where
  | loadImage (bytes : List Byte)
  | reset
  | step
  | start (n : Nat)
  | stop
  | readRegister (r : Reg)
  | readMemoryCell (addr : Word)
  | getCycleCount
  | isRunning
deriving DecidableEq, Repr

/-- The state after one host operation (R234). A step that halts or faults leaves the state as it was (R110). -/
def HostOp.apply (op : HostOp) (s : State) : State :=
  match op with
  | .loadImage bytes => s.loadImage bytes
  | .reset => s.hostReset
  | .step => (runFor 1 s).state
  | .start n => (runFor n s).state
  | .stop => s
  | .readRegister _ => s
  | .readMemoryCell _ => s
  | .getCycleCount => s
  | .isRunning => s

/-- A session of the host: one operation at a time, each on the state the one before left (R235). -/
def hostSession : List HostOp → State → State
  | [], s => s
  | op :: ops, s => hostSession ops (op.apply s)

end Sys2Proof.Machine
end

