-- ==== Sys2Proof/Machine/Assembler.lean ====
section
/-! DEFINITION. The assembler as far as the spec states it: accepted syntax, label values, literal inlining and emission
(30_encoding.md R86 to R99; in scope by 00_scope.md R4). It shares the encoder of Decode.lean with the core's decoder.
Source text is a list of characters; diagnostics carry no position (R5). What R88 to R98 leave open is log entry 7. -/

namespace Sys2Proof.Machine

/-- A token or a name, in upper case: case is not significant (R88). -/
abbrev Token := List Char

/-- Why a source text is not assembled (R98); no image is then produced. -/
inductive AsmError where
  /-- syntax: a token that cannot stand where it stands -/
  | unexpectedToken
  /-- syntax: the operand count does not match the mnemonic's arity (R89) -/
  | wrongArity
  /-- syntax: the mnemonic is not in the instruction table and not DAT (R97) -/
  | unknownMnemonic
  /-- syntax: a bracket expression without its end -/
  | unterminatedBracket
  /-- syntax: the text ends where a token is required -/
  | unexpectedEnd
  /-- semantic: PC, EX or the interrupt-address register inside brackets (R92) -/
  | disallowedRegister
  /-- semantic: a reference to an undefined label (R96) -/
  | undefinedLabel (name : Token)
  /-- a form the spec never writes and says not to assume: SP inside brackets (R92, 93_implementation_defined.md U16) -/
  | unstatedForm
  /-- PUSH in slot A or POP in slot B, which R91 does not list -/
  | stackKeywordInWrongSlot
  /-- two declarations of one label, of which the spec says nothing -/
  | duplicateLabel (name : Token)
deriving DecidableEq, Repr

/-! ### Tokens (R88) -/

/-- What the tokenizer is reading: plain text, a comment to the end of the line, or a span from `[` to `]`. -/
inductive LexMode where
  | plain
  | comment
  | bracket
deriving DecidableEq, Repr

/-- A finished token, given its characters in reverse, in front of the tokens that follow; nothing for no characters. -/
def pushToken (cur : List Char) (rest : List Token) : List Token :=
  if cur.isEmpty then rest else cur.reverse :: rest

/-- Tokens of the rest of a text, `cur` the characters of the current token in reverse (R88). Split characters inside a
bracket span belong to its token (R88). DESIGN CHOICE (log entry 7), where R88 is silent: inside a bracket span white space is
dropped, and a semicolon or a further `[` is a character of the token, so that no comment starts there; a `[` ends the token
before it, a `]` ends its own, and one outside a span is a character like any other. -/
def tokenizeFrom : LexMode → List Char → List Char → Except AsmError (List Token)
  | .plain, cur, [] => .ok (pushToken cur [])
  | .comment, _, [] => .ok []
  | .bracket, _, [] => .error .unterminatedBracket
  | .comment, _, c :: cs => if c = '\n' then tokenizeFrom .plain [] cs else tokenizeFrom .comment [] cs
  | .bracket, cur, c :: cs =>
    if c = ']' then (tokenizeFrom .plain [] cs).map (pushToken (c :: cur))
    else if c.isWhitespace then tokenizeFrom .bracket cur cs
    else tokenizeFrom .bracket (c.toUpper :: cur) cs
  | .plain, cur, c :: cs =>
    if c = ';' then (tokenizeFrom .comment [] cs).map (pushToken cur)
    else if c = ',' ∨ c = ':' then (tokenizeFrom .plain [] cs).map fun r => pushToken cur ([c] :: r)
    else if c.isWhitespace then (tokenizeFrom .plain [] cs).map (pushToken cur)
    else if c = '[' then (tokenizeFrom .bracket [c] cs).map (pushToken cur)
    else tokenizeFrom .plain (c.toUpper :: cur) cs

/-! ### Operands as written (R91) -/

/-- The value of a digit in a base. -/
def digitValue (base : Nat) (c : Char) : Option Nat :=
  let v :=
    if '0' ≤ c ∧ c ≤ '9' then c.toNat - '0'.toNat
    else if 'A' ≤ c ∧ c ≤ 'F' then c.toNat - 'A'.toNat + 10
    else base
  if v < base then some v else none

/-- The number a string of digits stands for. -/
def digitsValue (base : Nat) : Nat → List Char → Option Nat
  | acc, [] => some acc
  | acc, c :: cs =>
    match digitValue base c with
    | none => none
    | some d => digitsValue base (acc * base + d) cs

/-- A numeric token without a sign: decimal, or hexadecimal after `0x` (R91). -/
def parseNat : Token → Option Nat
  | '0' :: 'X' :: c :: cs => digitsValue 16 0 (c :: cs)
  | c :: cs => digitsValue 10 0 (c :: cs)
  | [] => none

/-- A numeric literal; a leading minus sign is how this spec writes a negative one (R91). -/
def parseNumber : Token → Option Int
  | '-' :: cs => (parseNat cs).map fun n => -(n : Int)
  | t => (parseNat t).map fun n => (n : Int)

/-- A register by name (R91). -/
def Reg.ofName : Token → Option Reg
  | ['A'] => some (.gen .A)
  | ['B'] => some (.gen .B)
  | ['C'] => some (.gen .C)
  | ['X'] => some (.gen .X)
  | ['Y'] => some (.gen .Y)
  | ['Z'] => some (.gen .Z)
  | ['I'] => some (.gen .I)
  | ['J'] => some (.gen .J)
  | ['S', 'P'] => some .sp
  | ['P', 'C'] => some .pc
  | ['E', 'X'] => some .ex
  | _ => none

/-- The operand variants of the source (R91). -/
inductive SrcOperand where
  | literal (n : Int)
  | register (r : Reg)
  | address (n : Int)
  | indirect (r : GReg)
  | indirectPlus (r : GReg) (n : Int)
  | labelIndirect (name : Token)
  | push
  | pop
  | peek
  | pick (n : Int)
  | label (name : Token)
deriving DecidableEq, Repr

/-- A general register named inside brackets; PC, EX and the interrupt-address register are rejected there (R92), SP is
a form the spec does not state; `none` for any other name. -/
def bracketRegister (t : Token) : Except AsmError (Option GReg) :=
  match Reg.ofName t with
  | some (.gen r) => .ok (some r)
  | some .sp => .error .unstatedForm
  | some .pc => .error .disallowedRegister
  | some .ex => .error .disallowedRegister
  | none => if t = ['I', 'A'] then .error .disallowedRegister else .ok none

/-- The text before the first sign, whether the sign is a plus, and the text after it. -/
def splitAtSign : List Char → Option (List Char × Bool × List Char)
  | [] => none
  | c :: cs =>
    if c = '+' then some ([], true, cs)
    else if c = '-' then some ([], false, cs)
    else (splitAtSign cs).map fun (l, plus, r) => (c :: l, plus, r)

/-- The content of a bracket span (R91): a numeric address, a register, register ± number or number + register, or a
label. DESIGN CHOICE (log entry 7): a number minus a register is refused, and so is a span with a sign whose parts are no
register and number, which is then no label; any other content is a label name. -/
def parseBracket (t : Token) : Except AsmError SrcOperand :=
  match parseNumber t with
  | some n => .ok (.address n)
  | none =>
    match splitAtSign t with
    | none => do
      match ← bracketRegister t with
      | some r => .ok (.indirect r)
      | none => if t.isEmpty then .error .unexpectedToken else .ok (.labelIndirect t)
    | some (l, plus, r) =>
      match parseNat r, parseNat l with
      | some n, _ => do
        match ← bracketRegister l with
        | some g => .ok (.indirectPlus g (if plus then (n : Int) else -(n : Int)))
        | none => .error .unexpectedToken
      | none, some n => do
        match ← bracketRegister r with
        | some g => if plus then .ok (.indirectPlus g n) else .error .unexpectedToken
        | none => .error .unexpectedToken
      | none, none => .error .unexpectedToken

/-- One operand, in the priority order of R91, with the tokens that follow it. DESIGN CHOICE (log entry 7): R91 does not say
what a bare name may begin with; a token that begins with a digit or a minus sign and is no number is refused, and any other
token that no earlier form takes is a label name. A quotation mark is a character like any other, so that a quoted token is read
as a label name: there are no strings. -/
def parseOperand : List Token → Except AsmError (SrcOperand × List Token)
  | [] => .error .unexpectedEnd
  | t :: ts =>
    match parseNumber t, Reg.ofName t with
    | some n, _ => .ok (.literal n, ts)
    | none, some r => .ok (.register r, ts)
    | none, none =>
      match t with
      | '[' :: inner => (parseBracket inner.dropLast).map fun o => (o, ts)
      | ['P', 'U', 'S', 'H'] => .ok (.push, ts)
      | ['P', 'O', 'P'] => .ok (.pop, ts)
      | ['P', 'E', 'E', 'K'] => .ok (.peek, ts)
      | ['P', 'I', 'C', 'K'] =>
        match ts with
        | [] => .error .unexpectedEnd
        | n :: rest =>
          match parseNumber n with
          | some v => .ok (.pick v, rest)
          | none => .error .unexpectedToken
      | [','] => .error .unexpectedToken
      | [':'] => .error .unexpectedToken
      | c :: _ => if c.isDigit ∨ c = '-' then .error .unexpectedToken else .ok (.label t, ts)
      | [] => .error .unexpectedToken

/-! ### Programs (R89, R90, R95, R97) -/

/-- A basic mnemonic (R80, R97). -/
def BasicOp.ofName : Token → Option BasicOp
  | ['S', 'E', 'T'] => some .set | ['A', 'D', 'D'] => some .add | ['S', 'U', 'B'] => some .sub
  | ['M', 'U', 'L'] => some .mul | ['M', 'L', 'I'] => some .mli | ['D', 'I', 'V'] => some .div
  | ['D', 'V', 'I'] => some .dvi | ['M', 'O', 'D'] => some .mod | ['M', 'D', 'I'] => some .mdi
  | ['A', 'N', 'D'] => some .and | ['B', 'O', 'R'] => some .bor | ['X', 'O', 'R'] => some .xor
  | ['S', 'H', 'R'] => some .shr | ['A', 'S', 'R'] => some .asr | ['S', 'H', 'L'] => some .shl
  | ['I', 'F', 'B'] => some .ifb | ['I', 'F', 'C'] => some .ifc | ['I', 'F', 'E'] => some .ife
  | ['I', 'F', 'N'] => some .ifn | ['I', 'F', 'G'] => some .ifg | ['I', 'F', 'A'] => some .ifa
  | ['I', 'F', 'L'] => some .ifl | ['I', 'F', 'U'] => some .ifu | ['A', 'D', 'X'] => some .adx
  | ['S', 'B', 'X'] => some .sbx | ['S', 'T', 'I'] => some .sti | ['S', 'T', 'D'] => some .std
  | _ => none

/-- One item of a program (R89, R95). `basic op b a` is written `OP b, a` (R90). -/
inductive Stmt where
  | label (name : Token)
  | basic (op : BasicOp) (b a : SrcOperand)
  | jsr (a : SrcOperand)
  | dat (v : SrcOperand)
deriving DecidableEq, Repr

/-- After a statement's operands no further operand may follow (R89). -/
def endOfOperands (rest : List Token) : Except AsmError Unit :=
  match rest with
  | [','] :: _ => .error .wrongArity
  | _ => .ok ()

/-- One statement and the tokens that follow it (R89). DESIGN CHOICE (log entry 7): R89 does not say what a label name is;
after the colon of a declaration any token but a comma, a colon or a bracket span is taken as one, also a number, a register
name, a keyword or a mnemonic (of these a name that R91 reads as another operand can be declared and never referred to). DESIGN CHOICE (log entry 7), where
R98 does not say which of its errors applies: any token in mnemonic position that is no mnemonic, a comma or a bracket span
too, is an unknown mnemonic; a missing comma or second operand, and a comma after the last operand, is a wrong arity; an
operand missing at the end of the text, the first one or one after its comma, is an unexpected end. -/
def parseStmt : List Token → Except AsmError (Stmt × List Token)
  | [] => .error .unexpectedEnd
  | [':'] :: ts =>
    match ts with
    | [] => .error .unexpectedEnd
    | name :: rest =>
      if name = [','] ∨ name = [':'] ∨ name.head? = some '[' then .error .unexpectedToken else .ok (.label name, rest)
  | t :: ts =>
    match BasicOp.ofName t with
    | some op => do
      let (b, r1) ← parseOperand ts
      match r1 with
      | [','] :: r2 => do
        let (a, r3) ← parseOperand r2
        endOfOperands r3
        .ok (.basic op b a, r3)
      | _ => .error .wrongArity
    | none =>
      if t = ['J', 'S', 'R'] then do
        let (a, r1) ← parseOperand ts
        endOfOperands r1
        .ok (.jsr a, r1)
      else if t = ['D', 'A', 'T'] then do
        let (a, r1) ← parseOperand ts
        endOfOperands r1
        .ok (.dat a, r1)
      else .error .unknownMnemonic

/-- The statements of a program; parsing stops at the first error (R98). A statement takes at least one token, so the
number of tokens is fuel enough. -/
def parseStmts : Nat → List Token → Except AsmError (List Stmt)
  | _, [] => .ok []
  | 0, _ :: _ => .error .unexpectedToken
  | fuel + 1, t :: ts => do
    let (st, rest) ← parseStmt (t :: ts)
    let more ← parseStmts fuel rest
    .ok (st :: more)

/-! ### Labels, inlining and emission (R93 to R96, R99) -/

/-- A literal of slot A is inlined when its signed value is in −1..30 (R77, R93); every other literal takes a trailing
word. -/
def literalOperand (slot : Slot) (n : Int) : Operand :=
  match slot with
  | .A =>
    if -1 ≤ signed (wrap n) ∧ signed (wrap n) ≤ 30 then .inlineLit (BitVec.ofInt 5 (signed (wrap n) + 1))
    else .litNext (wrap n)
  | .B => .litNext (wrap n)

/-- The operand a written operand stands for, given the values of the labels (R91, R93, R96). A label operand is never
inlined. -/
def SrcOperand.lower (labels : Token → Option Word) (slot : Slot) : SrcOperand → Except AsmError Operand
  | .literal n => .ok (literalOperand slot n)
  | .register (.gen r) => .ok (.reg r)
  | .register .sp => .ok .sp
  | .register .pc => .ok .pc
  | .register .ex => .ok .ex
  | .address n => .ok (.memNext (wrap n))
  | .indirect r => .ok (.regInd r)
  | .indirectPlus r n => .ok (.regIndNext r (wrap n))
  | .labelIndirect name =>
    match labels name with
    | some v => .ok (.memNext v)
    | none => .error (.undefinedLabel name)
  | .push =>
    match slot with
    | .B => .ok .pushPop
    | .A => .error .stackKeywordInWrongSlot
  | .pop =>
    match slot with
    | .A => .ok .pushPop
    | .B => .error .stackKeywordInWrongSlot
  | .peek => .ok .peek
  | .pick n => .ok (.pick (wrap n))
  | .label name =>
    match labels name with
    | some v => .ok (.litNext v)
    | none => .error (.undefinedLabel name)

/-- The words of one statement (R94, R95): an instruction's encoding, or the bare word of a DAT. DESIGN CHOICE (log entry 7):
R95 gives DAT the value of its operand and does not say what that is for an operand that is neither a number nor a label; a
DAT of a register, a bracket span, PUSH, POP, PEEK or PICK is refused as an unexpected token. R95 does not say whether DAT
accepts strings; it accepts none: a quoted token is a label name, undefined unless such a label is declared. -/
def Stmt.emit (labels : Token → Option Word) : Stmt → Except AsmError (List Word)
  | .label _ => .ok []
  | .basic op b a => do
    let b' ← b.lower labels .B
    let a' ← a.lower labels .A
    .ok (encode (Instr.ofBasic op b' a'))
  | .jsr a => do
    let a' ← a.lower labels .A
    .ok (encode (.jsr a'))
  | .dat (.literal n) => .ok [wrap n]
  | .dat (.label name) =>
    match labels name with
    | some v => .ok [v]
    | none => .error (.undefinedLabel name)
  | .dat _ => .error .unexpectedToken

/-- The labels of a program with their values: the word address at which the next emitted word will stand (R96). Lengths
do not depend on the labels' values. DESIGN CHOICE (log entry 7): R96 does not speak of a label at word address 65536 or
beyond; its value is reduced modulo 65536. The rest of the list is evaluated before a declaration is held against it, so an
emission error of a later statement is answered before a duplicate label, and of several duplicates the one whose
first declaration stands last in the text; R98 does not order them. -/
def collectLabels : Nat → List Stmt → Except AsmError (List (Token × Word))
  | _, [] => .ok []
  | addr, .label name :: rest => do
    let more ← collectLabels addr rest
    if more.any (fun p => p.1 == name) then .error (.duplicateLabel name)
    else .ok ((name, BitVec.ofNat 16 addr) :: more)
  | addr, st :: rest => do
    let ws ← st.emit (fun _ => some 0)
    collectLabels (addr + ws.length) rest

/-- The value of a label. -/
def labelValue (labels : List (Token × Word)) (name : Token) : Option Word :=
  match labels with
  | [] => none
  | (n, v) :: rest => if n = name then some v else labelValue rest name

/-- The words of a program's statements in order (R94, R99). -/
def emitAll (labels : Token → Option Word) : List Stmt → Except AsmError (List Word)
  | [] => .ok []
  | st :: rest => do
    let ws ← st.emit labels
    let more ← emitAll labels rest
    .ok (ws ++ more)

/-- The words a program's statements assemble to (R94 to R96). -/
def assembleStmts (prog : List Stmt) : Except AsmError (List Word) := do
  let labels ← collectLabels 0 prog
  emitAll (labelValue labels) prog

/-- The words a source text assembles to. DESIGN CHOICE (log entry 7), where R98 does not say which of several errors is
answered: the whole text is tokenized first, then parsed, then its labels are collected, then its words are emitted, and the
first error of the first of these passes to have one is answered; so an unterminated bracket anywhere comes before every
other error, and a disallowed register, which the parser finds, before a later syntax error. -/
def assemble (source : List Char) : Except AsmError (List Word) := do
  let tokens ← tokenizeFrom .plain [] source
  let prog ← parseStmts tokens.length tokens
  assembleStmts prog

/-- The image a source text assembles to: the words in order, each as two bytes, high byte first (R99). -/
def assembleImage (source : List Char) : Except AsmError (List Byte) :=
  (assemble source).map bytesOfWords

end Sys2Proof.Machine
end

