-- ==== Sys2Proof/Safety.lean ====
section
/-! DEFINITION. What a step and a run can come to, in the spec's own terms (40_step_and_operands.md R110, R136,
60_exceptions.md R210, R224). -/

namespace Sys2Proof.Machine

/-- An illegal word (R83): basic format with operation code 0x18, 0x19, 0x1C or 0x1D, or special format with operation
code 0x02..0x1F. -/
def isIllegalWord (w : Word) : Bool :=
  let o := (w &&& 0x001F).toNat
  let o' := ((w >>> 5) &&& 0x001F).toNat
  (o == 0x18 || o == 0x19 || o == 0x1C || o == 0x1D) || (o == 0 && 2 ≤ o')

/-- The machine has halted: the word at PC is a halt word (R136). -/
def State.halted (s : State) : Bool := isHaltWord (s.readMem s.pc)

/-- The next step faults: the word at PC is illegal (R210). -/
def State.faulting (s : State) : Bool := isIllegalWord (s.readMem s.pc)

/-- The three outcomes of a step as the spec counts them (R110): `Halt` is one of its own, neither a next state nor a
fault (R224). -/
inductive SpecOutcome where
  | next (s : State)
  | halt
  | fault (p w : Word)
deriving DecidableEq, Repr

/-- What a step answers, read in the spec's outcomes: the model's step from a halted state to itself is `Halt`
(log entry 3). A refusal, which no state of this model answers, is read as the fault it would have to be. -/
def specOutcome (s : State) : SpecOutcome :=
  if s.halted then .halt
  else
    match step s with
    | .next s' => .next s'
    | .fault (.unknownOpcode p w) => .fault p w
    | .refused _ => .fault s.pc (s.readMem s.pc)

/-- A run of at most `n` steps is safe when it does not end in a fault. -/
def safeFor (n : Nat) (s : State) : Bool :=
  match runFor n s with
  | .stopped _ => true
  | .halted _ => true
  | .faulted _ _ _ => false
  | .refused _ _ => false

/-- The invariant of every state the machine and its host produce: both memories are in canonical form. -/
def State.wf (s : State) : Bool := s.mem.wf && s.img.wf

end Sys2Proof.Machine
end

