-- ==== Sys2Proof/Certificates/Slice0/Obligations.lean ====
section
/-! DEFINITION. The statements for the provers, and the few notions they are written in. The notions are written out from
the spec and do not use `rd`, `wr`, `prepareBasic` or the shared operations of the meanings; of the meanings' own functions
only `handleA`, `handleB` and `storeAddress` are used, and the statement `OperandHandles` says what those give. -/

namespace Sys2Proof.Claims

open Sys2Proof.Machine

/-- The instruction word of the basic format with operation code `o`: `o + 32*bc + 1024*ac` (R86). -/
def basicWord (o : Nat) (b a : Operand) : Word :=
  BitVec.ofNat 16 (o + 32 * (b.code.toNat % 32) + 1024 * a.code.toNat)

/-- A register when the instruction operates (R111): PC is past the instruction and its `n` trailing words (R128), SP has
had the operands' adjustments (R130), and every other register is as it was. Where R128 and R130 rest on the spec's
decisions D4 and D6, so does this (log entry 8). -/
def regAtExecution (n : Nat) (sp : Word) (s : State) (r : Reg) : Word :=
  match r with
  | .pc => s.pc + BitVec.ofNat 16 (1 + n)
  | .sp => sp
  | .gen g => s.readGen g
  | .ex => s.ex

/-- What a handle reads as when the instruction operates (R131). -/
def valueAtExecution (n : Nat) (sp : Word) (s : State) (h : Handle) : Word :=
  match h with
  | .reg r => regAtExecution n sp s r
  | .ram x => s.readMem x
  | .lit v => v

/-- The trailing words of the two operands together (R76). -/
def trailingWords (b a : Operand) : Nat := a.trailing.length + b.trailing.length

/-- SP when a two-operand instruction operates: one up for POP in slot A, one down for PUSH in slot B (R118, R119, R130). -/
def spAtExecution (b a : Operand) (s : State) : Word :=
  s.sp + (if a = .pushPop then 1 else 0) + (if b = .pushPop then -1 else 0)

/-- A register when a two-operand instruction operates. -/
def basicReg (b a : Operand) (s : State) (r : Reg) : Word :=
  regAtExecution (trailingWords b a) (spAtExecution b a s) s r

/-- The value of operand A of a two-operand instruction. -/
def valueA (b a : Operand) (s : State) : Word :=
  valueAtExecution (trailingWords b a) (spAtExecution b a s) s (handleA a s)

/-- The value of operand B of a two-operand instruction. -/
def valueB (b a : Operand) (s : State) : Word :=
  valueAtExecution (trailingWords b a) (spAtExecution b a s) s (handleB b a s)

/-- The fields no instruction but a conditional changes, and the two that none changes. -/
def SameControl (s t : State) : Prop := t.skip = s.skip ∧ t.img = s.img ∧ t.litWrite = s.litWrite

/-- What an instruction that writes operand `b` does, whole (R111, R150): its instruction word has operation code `o`;
in every state and with every operand it completes; `b` receives the first part of `f vb va ex`; EX receives the second
part where there is one, also when `b` is EX; every other register is as it was when the instruction operated; every
memory word but the one `b` stands for reads as before, and all of memory where `b` is a register or a literal; the other
fields are unchanged; the cycle counter grows by one for each trailing word and by `cycles`. -/
def WritesB (mk : Operand → Operand → Instr) (o cycles : Nat) (f : Word → Word → Word → Word × Option Word) : Prop :=
  ∀ (b a : Operand) (s : State),
    (encode (mk b a)).head? = some (basicWord o b a) ∧
    ∃ t, exec (mk b a) s = .next t ∧
      (∀ r, r ≠ .ex → t.readReg r = if handleB b a s = .reg r then (f (valueB b a s) (valueA b a s) s.ex).1
        else basicReg b a s r) ∧
      t.ex = (f (valueB b a s) (valueA b a s) s.ex).2.getD
        (if handleB b a s = .reg .ex then (f (valueB b a s) (valueA b a s) s.ex).1 else s.ex) ∧
      (∀ x, t.readMem x = if storeAddress b a s = some x then (f (valueB b a s) (valueA b a s) s.ex).1 else s.readMem x) ∧
      SameControl s t ∧
      t.cycles = s.cycles + trailingWords b a + cycles

/-- What STI and STD do, whole (R141, R142): as `WritesB` for a copy, and then I and J have `d` added, whatever `b` is. -/
def CopiesAndMoves (mk : Operand → Operand → Instr) (o cycles : Nat) (d : Word) : Prop :=
  ∀ (b a : Operand) (s : State),
    (encode (mk b a)).head? = some (basicWord o b a) ∧
    ∃ t, exec (mk b a) s = .next t ∧
      (∀ r, t.readReg r = (if handleB b a s = .reg r then valueA b a s else basicReg b a s r) +
        (if r = .gen .I ∨ r = .gen .J then d else 0)) ∧
      (∀ x, t.readMem x = if storeAddress b a s = some x then valueA b a s else s.readMem x) ∧
      SameControl s t ∧
      t.cycles = s.cycles + trailingWords b a + cycles

/-- What a conditional does, whole (R180): its instruction word has operation code `o` and it counts as conditional; in
every state and with every operand it completes; the skip flag is set exactly if the test of the two values is false (or
it was set before); no register but PC and, by operand side effects, SP changes, no memory word, no other field; the
cycle counter grows by one for each trailing word and by 2. -/
def TestsAndSkips (mk : Operand → Operand → Instr) (o : Nat) (test : Word → Word → Prop) : Prop :=
  ∀ (b a : Operand) (s : State),
    (encode (mk b a)).head? = some (basicWord o b a) ∧ (mk b a).conditional = true ∧
    ∃ t, exec (mk b a) s = .next t ∧
      (t.skip = true ↔ s.skip = true ∨ ¬ test (valueB b a s) (valueA b a s)) ∧
      (∀ r, t.readReg r = basicReg b a s r) ∧
      (∀ x, t.readMem x = s.readMem x) ∧
      t.img = s.img ∧ t.litWrite = s.litWrite ∧
      t.cycles = s.cycles + trailingWords b a + 2

/-- The general registers by their numbers 0..7, in the order R21 lists them. -/
def registerNumbered (k : Fin 8) : GReg := [GReg.A, .B, .C, .X, .Y, .Z, .I, .J].get k

/-- The operand-code table (R74) gives code `c` to the operand form `o` with next word `nw`, in both directions. -/
def CodeStandsFor (c : Nat) (nw : Word) (o : Operand) : Prop :=
  o.code.toNat = c ∧ operandOfCode (BitVec.ofNat 6 c) nw = o

/-- A halt word: its low ten bits are zero (R82). -/
def IsHaltWord (w : Word) : Prop := w.toNat % 1024 = 0

/-- An illegal word (R83): basic format with operation code 0x18, 0x19, 0x1C or 0x1D, or special format with operation
code 0x02..0x1F. -/
def IsIllegalWord (w : Word) : Prop :=
  (w.toNat % 32 = 0x18 ∨ w.toNat % 32 = 0x19 ∨ w.toNat % 32 = 0x1C ∨ w.toNat % 32 = 0x1D) ∨
  (w.toNat % 32 = 0 ∧ 2 ≤ w.toNat / 32 % 32)

/-- The words from `addr` on are `ws`, the addresses wrapping (R57). -/
def HoldsWords (s : State) (addr : Word) (ws : List Word) : Prop :=
  ∀ (k : Nat) (h : k < ws.length), s.readMem (addr + BitVec.ofNat 16 k) = ws[k]

end Sys2Proof.Claims

open Sys2Proof Sys2Proof.Machine Sys2Proof.Claims

/-- R86, R87 and R76: for every well-formed instruction, with every operand at every value the encoding admits, decoding its
encoding gives it back and leaves the words that follow. The codes are the spec's default IST (D1, log entry 9), operand A's
trailing word first is its decision D3 (log entry 8). -/
def Obligations.DecodeEncodeRoundTrip : Prop :=
  ∀ (i : Instr) (rest : List Word), i.wellFormed = true → decode (encode i ++ rest) = .ok (i, rest)

/-- R84 and R87: what decodes is well-formed, and its encoding is exactly the words it was read from. The codes are the
spec's default IST (D1, log entry 9), operand A's trailing word first is its decision D3 (log entry 8). -/
def Obligations.EncodeInvertsDecode : Prop :=
  ∀ (ws : List Word) (i : Instr) (rest : List Word), decode ws = .ok (i, rest) →
    i.wellFormed = true ∧ encode i ++ rest = ws

/-- R87: the fields of R73 recover `o`, `bc` and `ac` of R86. -/
def Obligations.PackedFieldsRecovered : Prop :=
  ∀ (o bc : BitVec 5) (ac : BitVec 6),
    (let w := BitVec.ofNat 16 (o.toNat + 32 * bc.toNat + 1024 * ac.toNat)
     packBasic o bc ac = w ∧ fieldO w = o ∧ fieldB w = bc ∧ fieldA w = ac) ∧
    (let w := BitVec.ofNat 16 (32 * o.toNat + 1024 * ac.toNat)
     packSpecial o ac = w ∧ fieldO w = 0 ∧ fieldB w = o ∧ fieldA w = ac)

/-- Words written out in 95_test_vectors.md (S2, 2.1, 2.4) and R86, R183, R196 and R197, with the instructions they
stand for. The operation codes are the spec's default IST (D1, PRESUMED, log entry 9), the order of the trailing words in the
three-word SET its decision D3 (log entry 8), and that 0x0000 halts its decision D9 (log entry 8). -/
def Obligations.SpecWordsDecode : Prop :=
  decode [0xD401] = .ok (.set (.reg .A) (.inlineLit 21), []) ∧
  decode [0x5261, 0x0002, 0x0001] = .ok (.set (.regIndNext .X 0x0001) (.regIndNext .Y 0x0002), []) ∧
  decode [0x39FE] = .ok (.sti (.regInd .J) (.regInd .I), []) ∧
  decode [0x8F82] = .ok (.add .pc (.inlineLit 3), []) ∧
  decode [0x002A] = .ok (.and (.reg .B) (.reg .A), []) ∧
  decode [0x0412] = .ok (.ife (.reg .A) (.reg .B), []) ∧
  decode [0x7C20, 0x0100] = .ok (.jsr (.litNext 0x0100), []) ∧
  decode [0x0000] = .ok (.halt 0, [])

/-- R77, with the assembler's inverse (R93). The last clause is R125 under LIT_WRITE = discard, one value of the parameter the spec
leaves open (D7), which the model carries in the state (log entry 2); `OperandHandles` states both values. -/
def Obligations.InlineLiteralValue : Prop :=
  (∀ (k : BitVec 5) (n : Nat) (s : State),
    0x20 ≤ (Operand.inlineLit k).code.toNat ∧ (Operand.inlineLit k).code.toNat ≤ 0x3F ∧
    resolve .A n (.inlineLit k) s = .lit (wrap (((Operand.inlineLit k).code.toNat : Int) - 0x21)) ∧
    (Operand.inlineLit k).trailing = [] ∧ operandOfCode (Operand.inlineLit k).code 0 = .inlineLit k) ∧
  (∀ v : Int, -1 ≤ v → v ≤ 30 → ((literalOperand .A v).code.toNat : Int) = 0x20 + v + 1) ∧
  (∀ (nw : Word) (s : State) (n : Nat), s.litWrite = .discard → resolve .A n (.litNext nw) s = .lit nw)

/-- R76 and R114; the order is the spec's decision D3 (90_conflicts.md C1), log entry 8. -/
def Obligations.TrailingWordOrder : Prop :=
  ∀ (s : State) (op : BasicOp) (b a : Operand) (rest : List Word),
    decode s.fetch = .ok (Instr.ofBasic op b a, rest) →
    (∀ v, a.trailing = [v] → v = s.readMem (s.pc + 1)) ∧
    (∀ v, b.trailing = [v] → v = s.readMem (s.pc + 1 + BitVec.ofNat 16 a.trailing.length))

/-- R74, R21 and R115 to R127: the code, the register number and the handle of every row of the operand-code table. That stack operands use SP as it was at the start of
the step is the spec's decision D5, that sums wrap D14 (log entry 8); the two handles of a next-word literal are the values of
LIT_WRITE, which it leaves open (D7, log entry 2). -/
def Obligations.OperandHandles : Prop :=
  ∀ (s : State) (sl : Slot) (n : Nat) (r : GReg) (nw : Word),
    (∀ k : Fin 8, CodeStandsFor k.val nw (.reg (registerNumbered k)) ∧
      CodeStandsFor (0x08 + k.val) nw (.regInd (registerNumbered k)) ∧
      CodeStandsFor (0x10 + k.val) nw (.regIndNext (registerNumbered k) nw)) ∧
    CodeStandsFor 0x18 nw .pushPop ∧ CodeStandsFor 0x19 nw .peek ∧ CodeStandsFor 0x1A nw (.pick nw) ∧
    CodeStandsFor 0x1B nw .sp ∧ CodeStandsFor 0x1C nw .pc ∧ CodeStandsFor 0x1D nw .ex ∧
    CodeStandsFor 0x1E nw (.memNext nw) ∧ CodeStandsFor 0x1F nw (.litNext nw) ∧
    (∀ k : BitVec 5, CodeStandsFor (0x20 + k.toNat) nw (.inlineLit k)) ∧
    resolve sl n (.reg r) s = .reg (.gen r) ∧
    resolve sl n (.regInd r) s = .ram (s.readGen r) ∧
    resolve sl n (.regIndNext r nw) s = .ram (wrap (unsigned (s.readGen r) + unsigned nw)) ∧
    resolve .B n .pushPop s = .ram (wrap (unsigned s.sp - 1)) ∧ spEffect .B .pushPop = [0xFFFF] ∧
    resolve .A n .pushPop s = .ram s.sp ∧ spEffect .A .pushPop = [0x0001] ∧
    resolve sl n .peek s = .ram s.sp ∧
    resolve sl n (.pick nw) s = .ram (wrap (unsigned s.sp + unsigned nw)) ∧
    resolve sl n .sp s = .reg .sp ∧ resolve sl n .pc s = .reg .pc ∧ resolve sl n .ex s = .reg .ex ∧
    resolve sl n (.memNext nw) s = .ram nw ∧
    resolve sl n (.litNext nw) s =
      (if s.litWrite = .discard then .lit nw else .ram (wrap (unsigned s.pc + ((n : Int) + 1)))) ∧
    (∀ k : BitVec 5, resolve .A n (.inlineLit k) s = .lit (wrap ((k.toNat : Int) - 1))) ∧
    (∀ o : Operand, o ≠ .pushPop → spEffect sl o = []) ∧
    (Operand.regIndNext r nw).trailing = [nw] ∧ (Operand.pick nw).trailing = [nw] ∧
    (Operand.memNext nw).trailing = [nw] ∧ (Operand.litNext nw).trailing = [nw] ∧
    (∀ o : Operand, consumesNext o.code = false → o.trailing = [])

/-- R140: SET copies a to b and changes nothing else.
Code, operation and cost are the spec's defaults (D1, D20: log entries 4, 5, 9), the handling of operands and EX its
decisions D3 to D7 and D15 (log entries 2, 8). -/
def Obligations.SetCopiesAToB : Prop :=
  WritesB .set 0x01 1 fun _ va _ =>
    (va, none)

/-- R141: STI copies a to b, then increments I and J.
Code, operation and cost are the spec's defaults (D1, D20: log entries 4, 5, 9), the handling of operands and EX its
decisions D3 to D7 and D15 (log entries 2, 8). -/
def Obligations.StiCopiesThenIncrements : Prop :=
  CopiesAndMoves .sti 0x1E 2 0x0001

/-- R142: STD copies a to b, then decrements I and J.
Code, operation and cost are the spec's defaults (D1, D20: log entries 4, 5, 9), the handling of operands and EX its
decisions D3 to D7 and D15 (log entries 2, 8). -/
def Obligations.StdCopiesThenDecrements : Prop :=
  CopiesAndMoves .std 0x1F 2 0xFFFF

/-- R151: ADD writes the wrapped sum to b and the carry to EX.
Code, operation and cost are the spec's defaults (D1, D20: log entries 4, 5, 9), the handling of operands and EX its
decisions D3 to D7 and D15 (log entries 2, 8). -/
def Obligations.AddWritesSumAndCarry : Prop :=
  WritesB .add 0x02 2 fun vb va _ =>
    (wrap (unsigned vb + unsigned va), some (if unsigned vb + unsigned va > 65535 then 0x0001 else 0x0000))

/-- R152: SUB writes the wrapped difference to b and the borrow to EX.
Code, operation and cost are the spec's defaults (D1, D20: log entries 4, 5, 9), the handling of operands and EX its
decisions D3 to D7 and D15 (log entries 2, 8). -/
def Obligations.SubWritesDifferenceAndBorrow : Prop :=
  WritesB .sub 0x03 2 fun vb va _ =>
    (wrap (unsigned vb - unsigned va), some (if unsigned vb - unsigned va < 0 then 0xFFFF else 0x0000))

/-- MUL writes the low word of the unsigned product to b and the high word to EX. R153; `t >> 16` is floor division by 65536 (R8).
Code, operation and cost are the spec's defaults (D1, D20: log entries 4, 5, 9), the handling of operands and EX its
decisions D3 to D7 and D15 (log entries 2, 8). -/
def Obligations.MulWritesUnsignedProduct : Prop :=
  WritesB .mul 0x04 2 fun vb va _ =>
    (wrap (unsigned vb * unsigned va), some (wrap ((unsigned vb * unsigned va) / 65536)))

/-- MLI writes the low word of the signed product to b and bits 31..16 to EX. R154; the division of integers rounds down.
Code, operation and cost are the spec's defaults (D1, D20: log entries 4, 5, 9), the handling of operands and EX its
decisions D3 to D7 and D15 (log entries 2, 8). -/
def Obligations.MliWritesSignedProduct : Prop :=
  WritesB .mli 0x05 2 fun vb va _ =>
    (wrap (signed vb * signed va), some (wrap ((signed vb * signed va) / 65536)))

/-- R155: DIV writes the unsigned quotient to b and its first 16 fraction bits to EX; by zero, 0 and 0.
Code, operation and cost are the spec's defaults (D1, D20: log entries 4, 5, 9), the handling of operands and EX its
decisions D3 to D7 and D15 (log entries 2, 8). -/
def Obligations.DivWritesQuotientAndFraction : Prop :=
  WritesB .div 0x06 3 fun vb va _ =>
    if unsigned va = 0 then (0x0000, some 0x0000)
    else (wrap (unsigned vb / unsigned va), some (wrap ((unsigned vb * 65536) / unsigned va)))

/-- R156: DVI writes the signed quotient, rounded toward zero, to b and its fraction to EX; by zero, 0 and 0.
Code, operation and cost are the spec's defaults (D1, D20: log entries 4, 5, 9), the handling of operands and EX its
decisions D3 to D7 and D15 (log entries 2, 8). -/
def Obligations.DviWritesSignedQuotient : Prop :=
  WritesB .dvi 0x07 3 fun vb va _ =>
    if unsigned va = 0 then (0x0000, some 0x0000)
    else (wrap ((signed vb).tdiv (signed va)), some (wrap ((signed vb * 65536).tdiv (signed va))))

/-- MOD writes the unsigned remainder to b; modulo zero gives 0. R157; that EX is not written is the spec's decision D16 (log entry 8).
Code, operation and cost are the spec's defaults (D1, D20: log entries 4, 5, 9), the handling of operands and EX its
decisions D3 to D7 and D15 (log entries 2, 8). -/
def Obligations.ModWritesUnsignedRemainder : Prop :=
  WritesB .mod 0x08 3 fun vb va _ =>
    if unsigned va = 0 then (0x0000, none) else (wrap (unsigned vb % unsigned va), none)

/-- MDI writes the remainder with the sign of the dividend to b; modulo zero gives 0. R158; that EX is not written is the spec's decision D16 (log entry 8).
Code, operation and cost are the spec's defaults (D1, D20: log entries 4, 5, 9), the handling of operands and EX its
decisions D3 to D7 and D15 (log entries 2, 8). -/
def Obligations.MdiWritesSignedRemainder : Prop :=
  WritesB .mdi 0x09 3 fun vb va _ =>
    if unsigned va = 0 then (0x0000, none)
    else (wrap (signed vb - signed va * (signed vb).tdiv (signed va)), none)

/-- R170: AND writes the bitwise and to b and leaves EX.
Code, operation and cost are the spec's defaults (D1, D20: log entries 4, 5, 9), the handling of operands and EX its
decisions D3 to D7 and D15 (log entries 2, 8). -/
def Obligations.AndWritesConjunction : Prop :=
  WritesB .and 0x0A 1 fun vb va _ =>
    (vb &&& va, none)

/-- R171: BOR writes the bitwise or to b and leaves EX.
Code, operation and cost are the spec's defaults (D1, D20: log entries 4, 5, 9), the handling of operands and EX its
decisions D3 to D7 and D15 (log entries 2, 8). -/
def Obligations.BorWritesDisjunction : Prop :=
  WritesB .bor 0x0B 1 fun vb va _ =>
    (vb ||| va, none)

/-- R172: XOR writes the bitwise exclusive or to b and leaves EX.
Code, operation and cost are the spec's defaults (D1, D20: log entries 4, 5, 9), the handling of operands and EX its
decisions D3 to D7 and D15 (log entries 2, 8). -/
def Obligations.XorWritesExclusiveOr : Prop :=
  WritesB .xor 0x0C 1 fun vb va _ =>
    (vb ^^^ va, none)

/-- SHR shifts b right by the whole word a and writes the bits shifted out to EX. R173; that the whole word is the count is the spec's decision D17 (log entry 8).
Code, operation and cost are the spec's defaults (D1, D20: log entries 4, 5, 9), the handling of operands and EX its
decisions D3 to D7 and D15 (log entries 2, 8). -/
def Obligations.ShrShiftsRightLogically : Prop :=
  WritesB .shr 0x0D 1 fun vb va _ =>
    (wrap (unsigned vb / 2 ^ va.toNat), some (wrap ((unsigned vb * 65536) / 2 ^ va.toNat)))

/-- ASR shifts b right by the whole word a, keeping its sign, and writes EX as SHR does. R174; that the whole word is the count is the spec's decision D17 (log entry 8).
Code, operation and cost are the spec's defaults (D1, D20: log entries 4, 5, 9), the handling of operands and EX its
decisions D3 to D7 and D15 (log entries 2, 8). -/
def Obligations.AsrShiftsRightArithmetically : Prop :=
  WritesB .asr 0x0E 1 fun vb va _ =>
    (wrap (signed vb / 2 ^ va.toNat), some (wrap ((unsigned vb * 65536) / 2 ^ va.toNat)))

/-- SHL shifts b left by the whole word a and writes the bits shifted out to EX. R175; that the whole word is the count is the spec's decision D17 (log entry 8).
Code, operation and cost are the spec's defaults (D1, D20: log entries 4, 5, 9), the handling of operands and EX its
decisions D3 to D7 and D15 (log entries 2, 8). -/
def Obligations.ShlShiftsLeft : Prop :=
  WritesB .shl 0x0F 1 fun vb va _ =>
    (wrap (unsigned vb * 2 ^ va.toNat), some (wrap (unsigned vb * 2 ^ va.toNat / 65536)))

/-- ADX writes b + a + EX to b and the carry to EX. R159; the EX result is the spec's decision D18 (log entry 8).
Code, operation and cost are the spec's defaults (D1, D20: log entries 4, 5, 9), the handling of operands and EX its
decisions D3 to D7 and D15 (log entries 2, 8). -/
def Obligations.AdxAddsWithEx : Prop :=
  WritesB .adx 0x1A 3 fun vb va ex =>
    (wrap (unsigned vb + unsigned va + unsigned ex),
      some (if unsigned vb + unsigned va + unsigned ex > 65535 then 0x0001 else 0x0000))

/-- SBX writes b - a + EX to b and underflow or overflow to EX. R160; the EX result is the spec's decision D18 (log entry 8).
Code, operation and cost are the spec's defaults (D1, D20: log entries 4, 5, 9), the handling of operands and EX its
decisions D3 to D7 and D15 (log entries 2, 8). -/
def Obligations.SbxSubtractsWithEx : Prop :=
  WritesB .sbx 0x1B 3 fun vb va ex =>
    (wrap (unsigned vb - unsigned va + unsigned ex),
      some (if unsigned vb - unsigned va + unsigned ex < 0 then 0xFFFF
        else if unsigned vb - unsigned va + unsigned ex > 65535 then 0x0001 else 0x0000))

/-- R181: IFB skips unless b and a have a set bit in common.
Code, operation and cost are the spec's defaults (D1, D20: log entries 4, 5, 9), the handling of operands and EX its
decisions D3 to D7 and D15 (log entries 2, 8). -/
def Obligations.IfbTestsCommonBit : Prop :=
  TestsAndSkips .ifb 0x10 fun vb va => vb &&& va ≠ 0

/-- R182: IFC skips unless b and a have no set bit in common.
Code, operation and cost are the spec's defaults (D1, D20: log entries 4, 5, 9), the handling of operands and EX its
decisions D3 to D7 and D15 (log entries 2, 8). -/
def Obligations.IfcTestsNoCommonBit : Prop :=
  TestsAndSkips .ifc 0x11 fun vb va => vb &&& va = 0

/-- R183: IFE skips unless b equals a.
Code, operation and cost are the spec's defaults (D1, D20: log entries 4, 5, 9), the handling of operands and EX its
decisions D3 to D7 and D15 (log entries 2, 8). -/
def Obligations.IfeTestsEqual : Prop :=
  TestsAndSkips .ife 0x12 fun vb va => vb = va

/-- R184: IFN skips unless b differs from a.
Code, operation and cost are the spec's defaults (D1, D20: log entries 4, 5, 9), the handling of operands and EX its
decisions D3 to D7 and D15 (log entries 2, 8). -/
def Obligations.IfnTestsUnequal : Prop :=
  TestsAndSkips .ifn 0x13 fun vb va => vb ≠ va

/-- R185: IFG skips unless b > a unsigned.
Code, operation and cost are the spec's defaults (D1, D20: log entries 4, 5, 9), the handling of operands and EX its
decisions D3 to D7 and D15 (log entries 2, 8). -/
def Obligations.IfgTestsUnsignedGreater : Prop :=
  TestsAndSkips .ifg 0x14 fun vb va => vb.toNat > va.toNat

/-- R186: IFA skips unless b > a signed.
Code, operation and cost are the spec's defaults (D1, D20: log entries 4, 5, 9), the handling of operands and EX its
decisions D3 to D7 and D15 (log entries 2, 8). -/
def Obligations.IfaTestsSignedGreater : Prop :=
  TestsAndSkips .ifa 0x15 fun vb va => vb.toInt > va.toInt

/-- R187: IFL skips unless b < a unsigned.
Code, operation and cost are the spec's defaults (D1, D20: log entries 4, 5, 9), the handling of operands and EX its
decisions D3 to D7 and D15 (log entries 2, 8). -/
def Obligations.IflTestsUnsignedLess : Prop :=
  TestsAndSkips .ifl 0x16 fun vb va => vb.toNat < va.toNat

/-- R188: IFU skips unless b < a signed.
Code, operation and cost are the spec's defaults (D1, D20: log entries 4, 5, 9), the handling of operands and EX its
decisions D3 to D7 and D15 (log entries 2, 8). -/
def Obligations.IfuTestsSignedLess : Prop :=
  TestsAndSkips .ifu 0x17 fun vb va => vb.toInt < va.toInt

/-- R196; that the target is read before the push is the spec's decision D19 (log entry 8). Code and cost are the spec's defaults
(D1, D20: log entries 5, 9), the handling of the operand its decisions D4 and D6 (log entry 8). -/
def Obligations.JsrPushesAndJumps : Prop :=
  ∀ (a : Operand) (s : State),
    (encode (.jsr a)).head? = some (BitVec.ofNat 16 (0x0020 + 1024 * a.code.toNat)) ∧
    let sp := s.sp + (if a = .pushPop then 1 else 0)
    ∃ t, exec (.jsr a) s = .next t ∧
      t.pc = valueAtExecution a.trailing.length sp s (handleA a s) ∧
      t.sp = sp - 1 ∧ t.ex = s.ex ∧ (∀ g, t.readGen g = s.readGen g) ∧
      (∀ x, t.readMem x = if x = sp - 1 then s.pc + BitVec.ofNat 16 (1 + a.trailing.length) else s.readMem x) ∧
      SameControl s t ∧
      t.cycles = s.cycles + a.trailing.length + 3

/-- R197 and R82; that `Halt` answers the unchanged state is the model's choice (log entry 3). -/
def Obligations.HaltWordChangesNothing : Prop :=
  ∀ (f : BitVec 6) (s : State),
    encode (.halt f) = [BitVec.ofNat 16 (1024 * f.toNat)] ∧ exec (.halt f) s = .next s

/-- R111; a skipped conditional is the spec's decision D8 and a halt word in the shadow of a skip D11 (log entry 8). -/
def Obligations.StepRunsDecodedInstruction : Prop :=
  ∀ (s : State) (i : Instr) (rest : List Word), decode s.fetch = .ok (i, rest) →
    ((s.skip = false ∨ i.isHalt = true) → step s = exec i s) ∧
    (s.skip = true → i.isHalt = false →
      step s = .next { s with
        pc := s.pc + BitVec.ofNat 16 (encode i).length
        cycles := s.cycles + 1
        skip := i.conditional })

/-- R110, R113, R210, R211 and R215, which rest on the spec's decisions D9 to D11 (log entry 8); that `Halt` is the step to the
same state is the model's choice (log entry 3). The illegal words are those of the default IST (D1, log entry 9); that more
cycles are counted rests on the default COST, which is positive (R134, R241, D20, log entry 5). -/
def Obligations.OutcomeDecidedByTheWord : Prop :=
  ∀ s : State,
    let w := s.readMem s.pc
    (IsHaltWord w → specOutcome s = .halt ∧ step s = .next s) ∧
    (IsIllegalWord w → specOutcome s = .fault s.pc w ∧ step s = .fault (.unknownOpcode s.pc w)) ∧
    (¬ IsHaltWord w → ¬ IsIllegalWord w → ∃ t, specOutcome s = .next t ∧ step s = .next t ∧ s.cycles < t.cycles) ∧
    ¬ (IsHaltWord w ∧ IsIllegalWord w)

/-- R83 and R84. Which words are illegal is the spec's default IST (D1, D2, PRESUMED, log entry 9); that a word with its low ten
bits zero halts whatever its `a` field is its decision D9 (log entry 8). -/
def Obligations.IllegalWordsAreExactlyTheListed : Prop :=
  ∀ w x y : Word,
    ((∃ e, decode [w, x, y] = .error e) ↔ IsIllegalWord w) ∧
    (IsHaltWord w → decode [w, x, y] = .ok (.halt (fieldA w), [x, y]))

/-- R134: What the cycle counter grows by in one step. The costs are the spec's default COST (D20, log entry 5), the cost of a
skipped conditional, a halt and a fault its decisions D8 to D10 (log entry 8). -/
def Obligations.CycleAccounting : Prop :=
  (∀ (s : State) (i : Instr) (rest : List Word) (t : State), decode s.fetch = .ok (i, rest) → step s = .next t →
    (i.isHalt = true → t.cycles = s.cycles) ∧
    (i.isHalt = false → s.skip = true → t.cycles = s.cycles + 1) ∧
    (i.isHalt = false → s.skip = false → t.cycles = s.cycles + i.trailingCount + cost i.mnemonic)) ∧
  (∀ (s u : State) (p w : Word), runFor 1 s = .faulted p w u → u.cycles = s.cycles) ∧
  (∃ t, step (State.reset.withFetchWord 16 0xD401) = .next t ∧ t.regA = 20 ∧ t.pc = 1 ∧ t.cycles = 1)

/-- R189; that a skipped conditional costs one cycle and is not evaluated is the spec's decision D8 (log entry 8). -/
def Obligations.SkipPassesOverAChain : Prop :=
  ∀ (chain : List Instr) (last : Instr) (s : State), s.skip = true →
    (∀ i ∈ chain, i.wellFormed = true ∧ i.conditional = true) →
    last.wellFormed = true → last.conditional = false → last.isHalt = false →
    HoldsWords s s.pc ((chain ++ [last]).flatMap encode) →
    Sys2Proof.core.run (chain.length + 1) s = .next { s with
      pc := s.pc + BitVec.ofNat 16 ((chain ++ [last]).flatMap encode).length
      cycles := s.cycles + (chain.length + 1)
      skip := false }

/-- The canonical form is the model's own (log entry 1); it makes equal memories equal data. -/
def Obligations.StepKeepsCanonicalMemory : Prop :=
  ∀ s t : State, s.wf = true → step s = .next t → t.wf = true

/-- R33 and R34; skip false is the spec's decision D12, the all-zero snapshot D13 (log entry 8). The canonical form is the
model's own (log entry 1). -/
def Obligations.ResetIsCanonical : Prop :=
  State.reset.wf = true ∧ (∀ r, State.reset.readReg r = 0) ∧ (∀ x, State.reset.readMem x = 0) ∧
  (∀ a : Nat, State.reset.img.read a = 0) ∧ State.reset.cycles = 0 ∧ State.reset.skip = false

/-- R234 and R235; the canonical form is the model's own (log entry 1). -/
def Obligations.HostSessionKeepsCanonicalMemory : Prop :=
  ∀ (ops : List HostOp) (s : State), s.wf = true → (hostSession ops s).wf = true

/-- R30 and R241: no rule that computes a register, a memory word, `skip` or an outcome reads `cycles`. -/
def Obligations.CyclesDoNotInfluenceAnything : Prop :=
  ∀ (s : State) (c : Nat),
    (∀ t, step s = .next t →
      step { s with cycles := c } = .next { t with cycles := c + (t.cycles - s.cycles) } ∧ s.cycles ≤ t.cycles) ∧
    (∀ f, step s = .fault f → step { s with cycles := c } = .fault f)

/-- R31, R230 and R231: no step reads or writes the snapshot; load writes it and reset reads it. That a load clears the rest of the
snapshot is the spec's decision D29 (C9, log entry 8). -/
def Obligations.SnapshotOnlyForLoadAndReset : Prop :=
  (∀ (s : State) (m : Memory),
    (∀ t, step s = .next t → t.img = s.img ∧ step { s with img := m } = .next { t with img := m }) ∧
    (∀ f, step s = .fault f → step { s with img := m } = .fault f)) ∧
  (∀ s : State, s.hostReset.mem = s.img ∧ s.hostReset.img = s.img) ∧
  (∀ (s : State) (bytes : List Byte) (ws : List Word), readImage bytes = .ok ws →
    (s.loadImage bytes).img = (s.loadImage bytes).mem ∧
    (∀ k : Nat, (s.loadImage bytes).img.read k = ws.getD k 0 ∧ (s.loadImage bytes).mem.read k = ws.getD k 0))

/-- R51: A memory write is seen by every later read of that address, fetch included, and by no other. -/
def Obligations.StoreIsSeenByReadsAndFetch : Prop :=
  ∀ (s : State) (a v x : Word),
    (s.writeMem a v).readMem x = (if x = a then v else s.readMem x) ∧
    { s.writeMem a v with pc := a }.fetch.head? = some v

/-- The canonical form is the model's own (log entry 1). -/
def Obligations.CanonicalMemoryIsDeterminedByItsWords : Prop :=
  ∀ m m' : Memory, m.wf = true → m'.wf = true → (∀ a, m.read a = m'.read a) → m = m'

/-- R21 to R24: no aliases, none hardwired. -/
def Obligations.RegistersDoNotAlias : Prop :=
  ∀ (s : State) (r q : Reg) (v : Word),
    (s.writeReg r v).readReg q = (if q = r then v else s.readReg q) ∧
    (s.writeReg r v).mem = s.mem ∧ (s.writeReg r v).cycles = s.cycles ∧ SameControl s (s.writeReg r v)

/-- R136, over the outcomes of R110 as `specOutcome` reads them from the step (`OutcomeDecidedByTheWord`), which rest on the spec's
decisions D9 to D11 (log entry 8); that `Halt` is the step to the same state is the model's choice (log entry 3). -/
def Obligations.RunEndsAtFirstHaltOrFault : Prop :=
  ∀ (n k : Nat) (s t u : State) (p w : Word) (r : Refusal),
    runFor 0 s = .stopped s ∧
    (specOutcome s = .halt → runFor (n + 1) s = .halted s) ∧
    (specOutcome s = .fault p w → runFor (n + 1) s = .faulted p w s) ∧
    (specOutcome s = .next t → runFor (n + 1) s = runFor n t) ∧
    runFor n s ≠ .refused r u ∧
    (runFor n s = .halted u → runFor (n + k) s = .halted u ∧ IsHaltWord (u.readMem u.pc) ∧ step u = .next u) ∧
    (runFor n s = .faulted p w u → runFor (n + k) s = .faulted p w u ∧ p = u.pc ∧ w = u.readMem u.pc ∧
      step u = .fault (.unknownOpcode p w))

/-- R118, R119 and R130 (the order of the adjustments is the spec's decision D6, log entry 8); 95_test_vectors.md S7. -/
def Obligations.PushThenPopRestores : Prop :=
  ∀ (s : State) (a : Operand) (r : GReg), a ≠ .pushPop →
    ∃ t u, exec (.set .pushPop a) s = .next t ∧ exec (.set (.reg r) .pushPop) t = .next u ∧
      t.sp = s.sp - 1 ∧ u.sp = s.sp ∧ u.readGen r = valueA .pushPop a s

/-- R196 and R200; the push order is the spec's decision D19 (log entry 8). -/
def Obligations.ReturnUndoesCall : Prop :=
  ∀ (s : State) (a : Operand),
    ∃ t u, exec (.jsr a) s = .next t ∧ exec (.set .pc .pushPop) t = .next u ∧
      u.pc = s.pc + BitVec.ofNat 16 (encode (.jsr a)).length ∧ u.sp = t.sp + 1 ∧
      (∀ g, u.readGen g = t.readGen g) ∧ u.ex = t.ex ∧ u.mem = t.mem

/-- From the formulas of R151, R152, R159 and R160 (decision D18, log entry 8); 95_test_vectors.md P5.
The formulas are the spec's default NUM (D1, D25, log entry 4). -/
def Obligations.CarryAndBorrowChain32Bits : Prop :=
  ∀ xh xl yh yl ex : Word,
    (let lo := num.add xl yl ex
     let hi := num.adx xh yh (lo.newEx.getD ex)
     hi.result.toNat * 65536 + lo.result.toNat =
       (xh.toNat * 65536 + xl.toNat + (yh.toNat * 65536 + yl.toNat)) % 4294967296) ∧
    (let lo := num.sub xl yl ex
     let hi := num.sbx xh yh (lo.newEx.getD ex)
     (hi.result.toNat * 65536 + lo.result.toNat : Int) =
       ((xh.toNat * 65536 + xl.toNat : Int) - (yh.toNat * 65536 + yl.toNat)) % 4294967296)

/-- R161: the low word is the same for MUL and MLI.
The formulas are the spec's default NUM (D1, D25, log entry 4). -/
def Obligations.ProductsAreExact : Prop :=
  ∀ vb va ex : Word, ∃ lo hu hs,
    num.mul vb va ex = { result := lo, newEx := some hu } ∧ num.mli vb va ex = { result := lo, newEx := some hs } ∧
    hu.toNat * 65536 + lo.toNat = vb.toNat * va.toNat ∧
    hs.toInt * 65536 + lo.toNat = vb.toInt * va.toInt

/-- R161, divide and remainder.
The formulas are the spec's default NUM (D1, D25, log entry 4). -/
def Obligations.DivisionLaws : Prop :=
  ∀ vb va ex : Word,
    (va ≠ 0 →
      (num.div vb va ex).result = vb / va ∧ (num.mod vb va ex).result = vb % va ∧
      (num.mdi vb va ex).result.toInt = vb.toInt.tmod va.toInt ∧
      (num.dvi vb va ex).result = vb.sdiv va ∧
      (¬ (vb = 0x8000 ∧ va = 0xFFFF) → (num.dvi vb va ex).result.toInt = vb.toInt.tdiv va.toInt)) ∧
    (va = 0 →
      num.div vb va ex = { result := 0, newEx := some 0 } ∧ num.dvi vb va ex = { result := 0, newEx := some 0 } ∧
      num.mod vb va ex = { result := 0, newEx := none } ∧ num.mdi vb va ex = { result := 0, newEx := none }) ∧
    (num.dvi 0x8000 0xFFFF ex).result = 0x8000

/-- R173 to R176; the closed forms are the spec's own inference (R175), the count's treatment its decision D17 (log entry 8).
The formulas are the spec's default NUM (D1, D25, log entry 4). -/
def Obligations.ShiftsInWordTerms : Prop :=
  ∀ vb va ex : Word,
    let n := va.toNat
    num.shr vb va ex = { result := vb >>> n, newEx := some (if n < 16 then vb <<< (16 - n) else vb >>> (n - 16)) } ∧
    num.asr vb va ex =
      { result := vb.sshiftRight n, newEx := some (if n < 16 then vb <<< (16 - n) else vb >>> (n - 16)) } ∧
    num.shl vb va ex = { result := vb <<< n, newEx := some (if n < 16 then vb >>> (16 - n) else vb <<< (n - 16)) }

/-- R231 and R232, which rest on the spec's decisions D12, D22 and D29 (log entry 8). -/
def Obligations.LoadReplacesMemoryAndSnapshot : Prop :=
  ∀ s : State,
    (∀ ws : List Word, ws.length ≤ 65536 →
      let t := s.loadImage (bytesOfWords ws)
      (∀ k, t.mem.read k = ws.getD k 0 ∧ t.img.read k = ws.getD k 0) ∧ (∀ r, t.readReg r = s.readReg r) ∧
      t.skip = s.skip ∧ t.cycles = s.cycles ∧ t.litWrite = s.litWrite) ∧
    (∀ bytes : List Byte, bytes.length % 2 = 1 ∨ 131072 < bytes.length → s.loadImage bytes = s)

/-- R230; skip is the spec's decision D12 (log entry 8). -/
def Obligations.ResetRestoresTheImage : Prop :=
  ∀ s : State,
    (∀ r, s.hostReset.readReg r = 0) ∧ (∀ x : Word, s.hostReset.readMem x = s.img.read x.toNat) ∧
    s.hostReset.img = s.img ∧ s.hostReset.cycles = 0 ∧ s.hostReset.skip = false ∧ s.hostReset.litWrite = s.litWrite

/-- R233: after a launch the state is fully determined by the image, whatever came before. That reset clears `skip` and load clears
the rest of the snapshot are the spec's decisions D12 and D29 (log entry 8); `litWrite` is no state of the spec but its
parameter LIT_WRITE, which no host operation changes (log entry 2). -/
def Obligations.LaunchForgetsThePast : Prop :=
  ∀ (s s' : State) (ws : List Word), s.litWrite = s'.litWrite → ws.length ≤ 65536 →
    s.launch (bytesOfWords ws) = s'.launch (bytesOfWords ws)

/-- R93, with R75 and R77. That 65535 is inlined as -1, and that a literal outside the 16-bit range, in either slot, stands for its
word, is the model's choice (log entry 7); the code of SET is the spec's default IST (D1, log entry 9). -/
def Obligations.LiteralInlining : Prop :=
  (∀ (labels : Token → Option Word) (n : Int), -1 ≤ n → n ≤ 30 → ∃ o, (SrcOperand.literal n).lower labels .A = .ok o ∧
    (o.code.toNat : Int) = 0x20 + n + 1 ∧ o.trailing = []) ∧
  (∀ (labels : Token → Option Word) (n : Int), (31 ≤ n ∧ n ≤ 65534) ∨ (-32768 ≤ n ∧ n ≤ -2) →
    ∃ o, (SrcOperand.literal n).lower labels .A = .ok o ∧
    o.code = 0x1F ∧ o.trailing = [wrap n]) ∧
  (∀ labels : Token → Option Word, ∃ o, (SrcOperand.literal 65535).lower labels .A = .ok o ∧
    o.code = 0x20 ∧ o.trailing = []) ∧
  (∀ (labels : Token → Option Word) (sl : Slot) (n : Int),
    (SrcOperand.literal n).lower labels sl = (SrcOperand.literal (signed (wrap n))).lower labels sl) ∧
  (∀ (labels : Token → Option Word) (n : Int), ∃ o, (SrcOperand.literal n).lower labels .B = .ok o ∧
    o.code = 0x1F ∧ o.trailing = [wrap n]) ∧
  (∀ (labels : Token → Option Word) (sl : Slot) (src : SrcOperand) (k : BitVec 5), src.lower labels sl = .ok (.inlineLit k) →
    sl = .A ∧ ∃ n, src = .literal n) ∧
  assembleStmts [.basic .set (.register (.gen .A)) (.literal 5)] = .ok [0x9801] ∧
  assembleStmts [.basic .set (.register (.gen .A)) (.literal 40)] = .ok [0x7C01, 40]
end

