-- ==== Sys2Proof/Laws/Decode.lean ====
section
/-! SUPPORT. The fields of packed words, codes and their inverses, and what decoding one operand can answer. -/

namespace Sys2Proof

@[simp] theorem fieldO_packBasic (o bc : BitVec 5) (ac : BitVec 6) : fieldO (packBasic o bc ac) = o := by
  unfold fieldO packBasic
  ext i hi
  interval_cases i <;> simp

@[simp] theorem fieldB_packBasic (o bc : BitVec 5) (ac : BitVec 6) : fieldB (packBasic o bc ac) = bc := by
  unfold fieldB packBasic
  ext i hi
  interval_cases i <;> simp

@[simp] theorem fieldA_packBasic (o bc : BitVec 5) (ac : BitVec 6) : fieldA (packBasic o bc ac) = ac := by
  unfold fieldA packBasic
  ext i hi
  interval_cases i <;> simp

@[simp] theorem fieldO_packSpecial (o : BitVec 5) (ac : BitVec 6) : fieldO (packSpecial o ac) = 0 := by
  unfold fieldO packSpecial
  ext i hi
  interval_cases i <;> simp

@[simp] theorem fieldB_packSpecial (o : BitVec 5) (ac : BitVec 6) : fieldB (packSpecial o ac) = o := by
  unfold fieldB packSpecial
  ext i hi
  interval_cases i <;> simp

@[simp] theorem fieldA_packSpecial (o : BitVec 5) (ac : BitVec 6) : fieldA (packSpecial o ac) = ac := by
  unfold fieldA packSpecial
  ext i hi
  interval_cases i <;> simp

@[simp] theorem GReg.ofCode_code (r : GReg) : GReg.ofCode r.code = r := by cases r <;> rfl

theorem GReg.code_ofCode : ∀ c : BitVec 3, (GReg.ofCode c).code = c := by decide

@[simp] theorem BasicOp.ofCode_code (op : BasicOp) : BasicOp.ofCode op.code = some op := by cases op <;> rfl

theorem BasicOp.code_ne_zero (op : BasicOp) : op.code ≠ 0 := by cases op <;> decide

theorem BasicOp.code_of_ofCode : ∀ (c : BitVec 5) (op : BasicOp), BasicOp.ofCode c = some op → op.code = c := by
  intro c op h
  have : ∀ c : BitVec 5, (BasicOp.ofCode c).all (fun op => op.code == c) = true := by decide
  have hc := this c
  rw [h] at hc
  simpa using hc

@[simp] theorem Instr.shape_ofBasic (op : BasicOp) (b a : Operand) : (Instr.ofBasic op b a).shape = .basic op b a := by
  cases op <;> rfl

/-- An instruction is what its shape says. -/
theorem Instr.eq_of_shape (i : Instr) :
    i = match i.shape with
      | .basic op b a => Instr.ofBasic op b a
      | .jsr a => .jsr a
      | .halt f => .halt f := by
  cases i <;> rfl

/-- A well-formed two-operand instruction is one whose operand B fits its slot. -/
@[simp] theorem Instr.wellFormed_ofBasic (op : BasicOp) (b a : Operand) :
    (Instr.ofBasic op b a).wellFormed = b.fitsSlotB := by
  cases op <;> rfl

/-- The operand codes of slot B survive being cut to five bits (R75). -/
theorem Operand.setWidth_code (o : Operand) (h : o.fitsSlotB = true) : (o.code.setWidth 5).setWidth 6 = o.code := by
  cases o with
  | reg r => cases r <;> rfl
  | regInd r => cases r <;> rfl
  | regIndNext r nw => cases r <;> rfl
  | inlineLit k => simp [Operand.fitsSlotB] at h
  | _ => rfl

/-- Whether an operand's code consumes a trailing word is whether it has one (R76). -/
theorem Operand.consumesNext_code (o : Operand) : (consumesNext o.code).toNat = o.trailingCount := by
  cases o with
  | reg r => cases r <;> rfl
  | regInd r => cases r <;> rfl
  | regIndNext r nw => cases r <;> rfl
  | inlineLit k => revert k; decide
  | _ => rfl

/-- At most one trailing word (R76). -/
theorem Operand.trailingCount_le_one (o : Operand) : o.trailingCount ≤ 1 := by
  cases o <;> simp [Operand.trailingCount, Operand.trailing]

/-- Everything `decodeOperand` can answer: the row of the table, with the first word taken if the code consumes one. -/
theorem decodeOperand_some {c : BitVec 6} {ws rest : List Word} {o : Operand}
    (h : decodeOperand c ws = some (o, rest)) :
    (consumesNext c = true ∧ ∃ nw, ws = nw :: rest ∧ o = operandOfCode c nw) ∨
    (consumesNext c = false ∧ ws = rest ∧ o = operandOfCode c 0) := by
  unfold decodeOperand at h
  cases hc : consumesNext c with
  | true =>
    rw [hc] at h
    cases ws with
    | nil => simp at h
    | cons nw ws =>
      simp only [if_true, Option.some.injEq, Prod.mk.injEq] at h
      exact .inl ⟨rfl, nw, by rw [h.2], h.1.symm⟩
  | false =>
    rw [hc] at h
    simp only [Bool.false_eq_true, if_false, Option.some.injEq, Prod.mk.injEq] at h
    exact .inr ⟨rfl, h.2, h.1.symm⟩

/-- Decoding an operand fails only for want of its trailing word. -/
theorem decodeOperand_none {c : BitVec 6} {ws : List Word} (h : decodeOperand c ws = none) :
    consumesNext c = true ∧ ws = [] := by
  unfold decodeOperand at h
  cases hc : consumesNext c with
  | true =>
    rw [hc] at h
    cases ws with
    | nil => exact ⟨rfl, rfl⟩
    | cons nw ws => simp at h
  | false => rw [hc] at h; simp at h

/-! ### The cases of decoding, one equation each -/

theorem decode_halt {w : Word} (ws : List Word) (hO : fieldO w = 0) (hB : fieldB w = 0) :
    decode (w :: ws) = .ok (.halt (fieldA w), ws) := by
  rw [decode, if_pos hO, if_pos hB]

theorem decode_jsr {w : Word} (ws : List Word) (hO : fieldO w = 0) (hB : fieldB w = 1) :
    decode (w :: ws) =
      match decodeOperand (fieldA w) ws with
      | none => .error .missingTrailingWord
      | some (a, ws1) => .ok (.jsr a, ws1) := by
  rw [decode, if_pos hO, if_neg (by rw [hB]; decide), if_pos hB]
  all_goals rfl

theorem decode_unknownSpecial {w : Word} (ws : List Word) (hO : fieldO w = 0) (h0 : fieldB w ≠ 0) (h1 : fieldB w ≠ 1) :
    decode (w :: ws) = .error (.unknownSpecial (fieldB w)) := by
  rw [decode, if_pos hO, if_neg h0, if_neg h1]

theorem decode_unknownBasic {w : Word} (ws : List Word) (hO : fieldO w ≠ 0) (hc : BasicOp.ofCode (fieldO w) = none) :
    decode (w :: ws) = .error (.unknownBasic (fieldO w)) := by
  rw [decode, if_neg hO]
  simp only [hc]

theorem decode_basic {w : Word} (ws : List Word) {op : BasicOp} (hO : fieldO w ≠ 0)
    (hc : BasicOp.ofCode (fieldO w) = some op) :
    decode (w :: ws) =
      match decodeOperand (fieldA w) ws with
      | none => .error .missingTrailingWord
      | some (a, ws1) =>
        match decodeOperand ((fieldB w).setWidth 6) ws1 with
        | none => .error .missingTrailingWord
        | some (b, ws2) => .ok (Instr.ofBasic op b a, ws2) := by
  rw [decode, if_neg hO]
  simp only [hc]
  all_goals rfl

/-- Everything `decode` can answer when it answers an instruction: which format the first word has and where the
operands come from. -/
theorem decode_ok {ws rest : List Word} {i : Instr} (h : decode ws = .ok (i, rest)) :
    ∃ w tail, ws = w :: tail ∧
      ((fieldO w = 0 ∧ fieldB w = 0 ∧ i = .halt (fieldA w) ∧ rest = tail) ∨
       (fieldO w = 0 ∧ fieldB w = 1 ∧ ∃ a, decodeOperand (fieldA w) tail = some (a, rest) ∧ i = .jsr a) ∨
       (∃ op b a mid, fieldO w ≠ 0 ∧ BasicOp.ofCode (fieldO w) = some op ∧
         decodeOperand (fieldA w) tail = some (a, mid) ∧
         decodeOperand ((fieldB w).setWidth 6) mid = some (b, rest) ∧ i = Instr.ofBasic op b a)) := by
  cases ws with
  | nil => simp [decode] at h
  | cons w tail =>
    refine ⟨w, tail, rfl, ?_⟩
    by_cases hO : fieldO w = 0
    · by_cases hB : fieldB w = 0
      · rw [decode_halt tail hO hB, Except.ok.injEq, Prod.mk.injEq] at h
        exact .inl ⟨hO, hB, h.1.symm, h.2.symm⟩
      · by_cases hB1 : fieldB w = 1
        · rw [decode_jsr tail hO hB1] at h
          cases hd : decodeOperand (fieldA w) tail with
          | none => simp [hd] at h
          | some p =>
            obtain ⟨a, ws1⟩ := p
            simp only [hd, Except.ok.injEq, Prod.mk.injEq] at h
            exact .inr (.inl ⟨hO, hB1, a, by rw [h.2], h.1.symm⟩)
        · rw [decode_unknownSpecial tail hO hB hB1] at h
          simp at h
    · cases hc : BasicOp.ofCode (fieldO w) with
      | none => rw [decode_unknownBasic tail hO hc] at h; simp at h
      | some op =>
        rw [decode_basic tail hO hc] at h
        cases ha : decodeOperand (fieldA w) tail with
        | none => simp [ha] at h
        | some p =>
          obtain ⟨a, mid⟩ := p
          simp only [ha] at h
          cases hb : decodeOperand ((fieldB w).setWidth 6) mid with
          | none => simp [hb] at h
          | some q =>
            obtain ⟨b, ws2⟩ := q
            simp only [hb, Except.ok.injEq, Prod.mk.injEq] at h
            exact .inr (.inr ⟨op, b, a, mid, hO, rfl, rfl, by rw [hb, h.2], h.1.symm⟩)

end Sys2Proof
end

