-- ==== Sys2Proof/Laws/State.lean ====
section
/-! SUPPORT. One lemma per observer per update of the state, tagged for simp, so that no later proof unfolds a record
update. The observers are the general registers through `readGen` and the other fields themselves. -/

namespace Sys2Proof.Machine

/-! ### `writeMem` -/

@[simp] theorem State.writeMem_readGen (s : State) (a v : Word) (g : GReg) : (s.writeMem a v).readGen g = s.readGen g := by cases g <;> rfl
@[simp] theorem State.writeMem_pc (s : State) (a v : Word) : (s.writeMem a v).pc = s.pc := rfl
@[simp] theorem State.writeMem_sp (s : State) (a v : Word) : (s.writeMem a v).sp = s.sp := rfl
@[simp] theorem State.writeMem_ex (s : State) (a v : Word) : (s.writeMem a v).ex = s.ex := rfl
@[simp] theorem State.writeMem_mem (s : State) (a v : Word) : (s.writeMem a v).mem = s.mem.write a.toNat v := rfl
@[simp] theorem State.writeMem_skip (s : State) (a v : Word) : (s.writeMem a v).skip = s.skip := rfl
@[simp] theorem State.writeMem_cycles (s : State) (a v : Word) : (s.writeMem a v).cycles = s.cycles := rfl
@[simp] theorem State.writeMem_img (s : State) (a v : Word) : (s.writeMem a v).img = s.img := rfl
@[simp] theorem State.writeMem_litWrite (s : State) (a v : Word) : (s.writeMem a v).litWrite = s.litWrite := rfl

/-! ### `writeGen` -/

@[simp] theorem State.writeGen_readGen (s : State) (r : GReg) (v : Word) (g : GReg) : (s.writeGen r v).readGen g = if g = r then v else s.readGen g := by cases r <;> cases g <;> rfl
@[simp] theorem State.writeGen_pc (s : State) (r : GReg) (v : Word) : (s.writeGen r v).pc = s.pc := by cases r <;> rfl
@[simp] theorem State.writeGen_sp (s : State) (r : GReg) (v : Word) : (s.writeGen r v).sp = s.sp := by cases r <;> rfl
@[simp] theorem State.writeGen_ex (s : State) (r : GReg) (v : Word) : (s.writeGen r v).ex = s.ex := by cases r <;> rfl
@[simp] theorem State.writeGen_mem (s : State) (r : GReg) (v : Word) : (s.writeGen r v).mem = s.mem := by cases r <;> rfl
@[simp] theorem State.writeGen_skip (s : State) (r : GReg) (v : Word) : (s.writeGen r v).skip = s.skip := by cases r <;> rfl
@[simp] theorem State.writeGen_cycles (s : State) (r : GReg) (v : Word) : (s.writeGen r v).cycles = s.cycles := by cases r <;> rfl
@[simp] theorem State.writeGen_img (s : State) (r : GReg) (v : Word) : (s.writeGen r v).img = s.img := by cases r <;> rfl
@[simp] theorem State.writeGen_litWrite (s : State) (r : GReg) (v : Word) : (s.writeGen r v).litWrite = s.litWrite := by cases r <;> rfl

/-! ### `advance` -/

@[simp] theorem State.advance_readGen (s : State) (n : Nat) (g : GReg) : (s.advance n).readGen g = s.readGen g := by cases g <;> rfl
@[simp] theorem State.advance_pc (s : State) (n : Nat) : (s.advance n).pc = s.pc + 1 + BitVec.ofNat 16 n := rfl
@[simp] theorem State.advance_sp (s : State) (n : Nat) : (s.advance n).sp = s.sp := rfl
@[simp] theorem State.advance_ex (s : State) (n : Nat) : (s.advance n).ex = s.ex := rfl
@[simp] theorem State.advance_mem (s : State) (n : Nat) : (s.advance n).mem = s.mem := rfl
@[simp] theorem State.advance_skip (s : State) (n : Nat) : (s.advance n).skip = s.skip := rfl
@[simp] theorem State.advance_cycles (s : State) (n : Nat) : (s.advance n).cycles = s.cycles := rfl
@[simp] theorem State.advance_img (s : State) (n : Nat) : (s.advance n).img = s.img := rfl
@[simp] theorem State.advance_litWrite (s : State) (n : Nat) : (s.advance n).litWrite = s.litWrite := rfl

/-! ### `addCycles` -/

@[simp] theorem State.addCycles_readGen (s : State) (n : Nat) (g : GReg) : (s.addCycles n).readGen g = s.readGen g := by cases g <;> rfl
@[simp] theorem State.addCycles_pc (s : State) (n : Nat) : (s.addCycles n).pc = s.pc := rfl
@[simp] theorem State.addCycles_sp (s : State) (n : Nat) : (s.addCycles n).sp = s.sp := rfl
@[simp] theorem State.addCycles_ex (s : State) (n : Nat) : (s.addCycles n).ex = s.ex := rfl
@[simp] theorem State.addCycles_mem (s : State) (n : Nat) : (s.addCycles n).mem = s.mem := rfl
@[simp] theorem State.addCycles_skip (s : State) (n : Nat) : (s.addCycles n).skip = s.skip := rfl
@[simp] theorem State.addCycles_cycles (s : State) (n : Nat) : (s.addCycles n).cycles = s.cycles + n := rfl
@[simp] theorem State.addCycles_img (s : State) (n : Nat) : (s.addCycles n).img = s.img := rfl
@[simp] theorem State.addCycles_litWrite (s : State) (n : Nat) : (s.addCycles n).litWrite = s.litWrite := rfl

/-! ### `setSkip` -/

@[simp] theorem State.setSkip_readGen (s : State) (g : GReg) : (s.setSkip).readGen g = s.readGen g := by cases g <;> rfl
@[simp] theorem State.setSkip_pc (s : State) : (s.setSkip).pc = s.pc := rfl
@[simp] theorem State.setSkip_sp (s : State) : (s.setSkip).sp = s.sp := rfl
@[simp] theorem State.setSkip_ex (s : State) : (s.setSkip).ex = s.ex := rfl
@[simp] theorem State.setSkip_mem (s : State) : (s.setSkip).mem = s.mem := rfl
@[simp] theorem State.setSkip_skip (s : State) : (s.setSkip).skip = true := rfl
@[simp] theorem State.setSkip_cycles (s : State) : (s.setSkip).cycles = s.cycles := rfl
@[simp] theorem State.setSkip_img (s : State) : (s.setSkip).img = s.img := rfl
@[simp] theorem State.setSkip_litWrite (s : State) : (s.setSkip).litWrite = s.litWrite := rfl

/-! ### `charge` -/

@[simp] theorem State.charge_readGen (s : State) (m : Mnemonic) (g : GReg) : (s.charge m).readGen g = s.readGen g := by cases g <;> rfl
@[simp] theorem State.charge_pc (s : State) (m : Mnemonic) : (s.charge m).pc = s.pc := rfl
@[simp] theorem State.charge_sp (s : State) (m : Mnemonic) : (s.charge m).sp = s.sp := rfl
@[simp] theorem State.charge_ex (s : State) (m : Mnemonic) : (s.charge m).ex = s.ex := rfl
@[simp] theorem State.charge_mem (s : State) (m : Mnemonic) : (s.charge m).mem = s.mem := rfl
@[simp] theorem State.charge_skip (s : State) (m : Mnemonic) : (s.charge m).skip = s.skip := rfl
@[simp] theorem State.charge_cycles (s : State) (m : Mnemonic) : (s.charge m).cycles = s.cycles + cost m := rfl
@[simp] theorem State.charge_img (s : State) (m : Mnemonic) : (s.charge m).img = s.img := rfl
@[simp] theorem State.charge_litWrite (s : State) (m : Mnemonic) : (s.charge m).litWrite = s.litWrite := rfl

/-! ### `writeEx` -/

@[simp] theorem State.writeEx_readGen (s : State) (e : Option Word) (g : GReg) : (s.writeEx e).readGen g = s.readGen g := by cases e <;> cases g <;> rfl
@[simp] theorem State.writeEx_pc (s : State) (e : Option Word) : (s.writeEx e).pc = s.pc := by cases e <;> rfl
@[simp] theorem State.writeEx_sp (s : State) (e : Option Word) : (s.writeEx e).sp = s.sp := by cases e <;> rfl
@[simp] theorem State.writeEx_ex (s : State) (e : Option Word) : (s.writeEx e).ex = e.getD s.ex := by cases e <;> rfl
@[simp] theorem State.writeEx_mem (s : State) (e : Option Word) : (s.writeEx e).mem = s.mem := by cases e <;> rfl
@[simp] theorem State.writeEx_skip (s : State) (e : Option Word) : (s.writeEx e).skip = s.skip := by cases e <;> rfl
@[simp] theorem State.writeEx_cycles (s : State) (e : Option Word) : (s.writeEx e).cycles = s.cycles := by cases e <;> rfl
@[simp] theorem State.writeEx_img (s : State) (e : Option Word) : (s.writeEx e).img = s.img := by cases e <;> rfl
@[simp] theorem State.writeEx_litWrite (s : State) (e : Option Word) : (s.writeEx e).litWrite = s.litWrite := by cases e <;> rfl

/-! ### `bumpIJ` -/

@[simp] theorem State.bumpIJ_readGen (s : State) (d : Word) (g : GReg) : (s.bumpIJ d).readGen g = if g = .I ∨ g = .J then s.readGen g + d else s.readGen g := by cases g <;> rfl
@[simp] theorem State.bumpIJ_pc (s : State) (d : Word) : (s.bumpIJ d).pc = s.pc := rfl
@[simp] theorem State.bumpIJ_sp (s : State) (d : Word) : (s.bumpIJ d).sp = s.sp := rfl
@[simp] theorem State.bumpIJ_ex (s : State) (d : Word) : (s.bumpIJ d).ex = s.ex := rfl
@[simp] theorem State.bumpIJ_mem (s : State) (d : Word) : (s.bumpIJ d).mem = s.mem := rfl
@[simp] theorem State.bumpIJ_skip (s : State) (d : Word) : (s.bumpIJ d).skip = s.skip := rfl
@[simp] theorem State.bumpIJ_cycles (s : State) (d : Word) : (s.bumpIJ d).cycles = s.cycles := rfl
@[simp] theorem State.bumpIJ_img (s : State) (d : Word) : (s.bumpIJ d).img = s.img := rfl
@[simp] theorem State.bumpIJ_litWrite (s : State) (d : Word) : (s.bumpIJ d).litWrite = s.litWrite := rfl

/-! ### `push` -/

@[simp] theorem State.push_readGen (s : State) (v : Word) (g : GReg) : (s.push v).readGen g = s.readGen g := by cases g <;> rfl
@[simp] theorem State.push_pc (s : State) (v : Word) : (s.push v).pc = s.pc := rfl
@[simp] theorem State.push_sp (s : State) (v : Word) : (s.push v).sp = s.sp - 1 := rfl
@[simp] theorem State.push_ex (s : State) (v : Word) : (s.push v).ex = s.ex := rfl
@[simp] theorem State.push_mem (s : State) (v : Word) : (s.push v).mem = s.mem.write (s.sp - 1).toNat v := rfl
@[simp] theorem State.push_skip (s : State) (v : Word) : (s.push v).skip = s.skip := rfl
@[simp] theorem State.push_cycles (s : State) (v : Word) : (s.push v).cycles = s.cycles := rfl
@[simp] theorem State.push_img (s : State) (v : Word) : (s.push v).img = s.img := rfl
@[simp] theorem State.push_litWrite (s : State) (v : Word) : (s.push v).litWrite = s.litWrite := rfl

/-! ### `writeReg` -/

@[simp] theorem State.writeReg_mem (s : State) (r : Reg) (v : Word) : (s.writeReg r v).mem = s.mem := by
  cases r with
  | gen g => exact State.writeGen_mem s g v
  | sp => rfl
  | pc => rfl
  | ex => rfl
@[simp] theorem State.writeReg_skip (s : State) (r : Reg) (v : Word) : (s.writeReg r v).skip = s.skip := by
  cases r with
  | gen g => exact State.writeGen_skip s g v
  | sp => rfl
  | pc => rfl
  | ex => rfl
@[simp] theorem State.writeReg_cycles (s : State) (r : Reg) (v : Word) : (s.writeReg r v).cycles = s.cycles := by
  cases r with
  | gen g => exact State.writeGen_cycles s g v
  | sp => rfl
  | pc => rfl
  | ex => rfl
@[simp] theorem State.writeReg_img (s : State) (r : Reg) (v : Word) : (s.writeReg r v).img = s.img := by
  cases r with
  | gen g => exact State.writeGen_img s g v
  | sp => rfl
  | pc => rfl
  | ex => rfl
@[simp] theorem State.writeReg_litWrite (s : State) (r : Reg) (v : Word) : (s.writeReg r v).litWrite = s.litWrite := by
  cases r with
  | gen g => exact State.writeGen_litWrite s g v
  | sp => rfl
  | pc => rfl
  | ex => rfl

/-- Reading a register after a register was written: the word written, or what it held. -/
@[simp] theorem State.readReg_writeReg (s : State) (r q : Reg) (v : Word) :
    (s.writeReg r v).readReg q = if q = r then v else s.readReg q := by
  cases r with
  | gen g =>
    cases q with
    | gen h => simp [State.writeReg, State.readReg]
    | sp => simp [State.writeReg, State.readReg]
    | pc => simp [State.writeReg, State.readReg]
    | ex => simp [State.writeReg, State.readReg]
  | sp => cases q <;> rfl
  | pc => cases q <;> rfl
  | ex => cases q <;> rfl

/-! ### `readReg` and `readMem` through the updates -/

@[simp] theorem State.writeMem_readReg (s : State) (a v : Word) (q : Reg) : (s.writeMem a v).readReg q = s.readReg q := by
  cases q with
  | gen g => exact State.writeMem_readGen s a v g
  | sp => rfl
  | pc => rfl
  | ex => rfl
@[simp] theorem State.addCycles_readReg (s : State) (n : Nat) (q : Reg) : (s.addCycles n).readReg q = s.readReg q := by
  cases q with
  | gen g => exact State.addCycles_readGen s n g
  | sp => rfl
  | pc => rfl
  | ex => rfl
@[simp] theorem State.setSkip_readReg (s : State) (q : Reg) : (s.setSkip).readReg q = s.readReg q := by
  cases q with
  | gen g => exact State.setSkip_readGen s g
  | sp => rfl
  | pc => rfl
  | ex => rfl
@[simp] theorem State.charge_readReg (s : State) (m : Mnemonic) (q : Reg) : (s.charge m).readReg q = s.readReg q := by
  cases q with
  | gen g => exact State.charge_readGen s m g
  | sp => rfl
  | pc => rfl
  | ex => rfl
@[simp] theorem State.writeReg_readMem (s : State) (r : Reg) (v : Word) (x : Word) : (s.writeReg r v).readMem x = s.readMem x := by
  simp [State.readMem]
@[simp] theorem State.writeEx_readMem (s : State) (e : Option Word) (x : Word) : (s.writeEx e).readMem x = s.readMem x := by
  simp [State.readMem]
@[simp] theorem State.advance_readMem (s : State) (n : Nat) (x : Word) : (s.advance n).readMem x = s.readMem x := by
  simp [State.readMem]
@[simp] theorem State.addCycles_readMem (s : State) (n : Nat) (x : Word) : (s.addCycles n).readMem x = s.readMem x := by
  simp [State.readMem]
@[simp] theorem State.setSkip_readMem (s : State) (x : Word) : (s.setSkip).readMem x = s.readMem x := by
  simp [State.readMem]
@[simp] theorem State.charge_readMem (s : State) (m : Mnemonic) (x : Word) : (s.charge m).readMem x = s.readMem x := by
  simp [State.readMem]
@[simp] theorem State.bumpIJ_readMem (s : State) (d : Word) (x : Word) : (s.bumpIJ d).readMem x = s.readMem x := by
  simp [State.readMem]

/-- The readings of a register after EX was written. -/
@[simp] theorem State.writeEx_readReg (s : State) (e : Option Word) (q : Reg) :
    (s.writeEx e).readReg q = if q = .ex then e.getD s.ex else s.readReg q := by
  cases e <;> cases q <;> rfl

/-- The readings of a register after I and J were moved. -/
@[simp] theorem State.bumpIJ_readReg (s : State) (d : Word) (q : Reg) :
    (s.bumpIJ d).readReg q = if q = .gen .I ∨ q = .gen .J then s.readReg q + d else s.readReg q := by
  cases q with
  | gen g => simp [State.readReg]
  | sp => rfl
  | pc => rfl
  | ex => rfl

/-! ### `applyEffects`: SP moves by the sum of the adjustments, nothing else changes -/

@[simp] theorem State.applyEffects_readGen (s : State) (ds : List Word) (g : GReg) : (s.applyEffects ds).readGen g = s.readGen g := by
  induction ds generalizing s with
  | nil => rfl
  | cons d ds ih => exact (ih _).trans (by cases g <;> rfl)
@[simp] theorem State.applyEffects_pc (s : State) (ds : List Word) : (s.applyEffects ds).pc = s.pc := by
  induction ds generalizing s with
  | nil => rfl
  | cons d ds ih => exact (ih _).trans rfl
@[simp] theorem State.applyEffects_ex (s : State) (ds : List Word) : (s.applyEffects ds).ex = s.ex := by
  induction ds generalizing s with
  | nil => rfl
  | cons d ds ih => exact (ih _).trans rfl
@[simp] theorem State.applyEffects_mem (s : State) (ds : List Word) : (s.applyEffects ds).mem = s.mem := by
  induction ds generalizing s with
  | nil => rfl
  | cons d ds ih => exact (ih _).trans rfl
@[simp] theorem State.applyEffects_skip (s : State) (ds : List Word) : (s.applyEffects ds).skip = s.skip := by
  induction ds generalizing s with
  | nil => rfl
  | cons d ds ih => exact (ih _).trans rfl
@[simp] theorem State.applyEffects_cycles (s : State) (ds : List Word) : (s.applyEffects ds).cycles = s.cycles := by
  induction ds generalizing s with
  | nil => rfl
  | cons d ds ih => exact (ih _).trans rfl
@[simp] theorem State.applyEffects_img (s : State) (ds : List Word) : (s.applyEffects ds).img = s.img := by
  induction ds generalizing s with
  | nil => rfl
  | cons d ds ih => exact (ih _).trans rfl
@[simp] theorem State.applyEffects_litWrite (s : State) (ds : List Word) : (s.applyEffects ds).litWrite = s.litWrite := by
  induction ds generalizing s with
  | nil => rfl
  | cons d ds ih => exact (ih _).trans rfl

@[simp] theorem State.applyEffects_sp (s : State) (ds : List Word) : (s.applyEffects ds).sp = s.sp + ds.sum := by
  induction ds generalizing s with
  | nil => simp [State.applyEffects]
  | cons d ds ih => rw [State.applyEffects, ih]; simp [add_assoc]

@[simp] theorem State.applyEffects_readMem (s : State) (ds : List Word) (x : Word) :
    (s.applyEffects ds).readMem x = s.readMem x := by
  simp [State.readMem]

end Sys2Proof.Machine
end

