-- ==== Sys2Proof/Laws/Memory.lean ====
section
/-! SUPPORT. The laws of memory: read after write, and that every memory operation keeps the canonical form. -/

namespace Sys2Proof.Machine

theorem Memory.read_erase (m : Memory) (a b : Nat) :
    (m.erase a).read b = if b = a then Memory.unlisted else m.read b := by
  induction m with
  | nil => simp [Memory.erase, Memory.read]
  | cons p rest ih =>
    obtain ⟨k, v⟩ := p
    by_cases hk : k = a
    · subst hk
      rw [Memory.erase, if_pos rfl, ih]
      by_cases hb : b = k
      · rw [if_pos hb, if_pos hb]
      · rw [if_neg hb, if_neg hb, Memory.read, if_neg (Ne.symm hb)]
    · by_cases hb : k = b
      · subst hb
        simp [Memory.erase, hk, Memory.read]
      · simp [Memory.erase, hk, Memory.read, hb, ih]

theorem Memory.read_insert_other (m : Memory) (a b : Nat) (v : Word) (h : b ≠ a) :
    (m.insert a v).read b = m.read b := by
  induction m with
  | nil => simp [Memory.insert, Memory.read, Ne.symm h]
  | cons p rest ih =>
    obtain ⟨k, w⟩ := p
    by_cases hk : a < k
    · simp [Memory.insert, hk, Memory.read, Ne.symm h]
    · rw [Memory.insert, if_neg hk, Memory.read, Memory.read, ih]

theorem Memory.read_insert_erase (m : Memory) (a : Nat) (v : Word) : ((m.erase a).insert a v).read a = v := by
  induction m with
  | nil => simp [Memory.erase, Memory.insert, Memory.read]
  | cons p rest ih =>
    obtain ⟨k, w⟩ := p
    by_cases hk : k = a
    · simp [Memory.erase, hk, ih]
    · by_cases hl : a < k
      · simp [Memory.erase, hk, Memory.insert, hl, Memory.read]
      · simp [Memory.erase, hk, Memory.insert, hl, Memory.read, ih]

/-- Reading after a write: the word written at its address, what was there at every other. -/
@[simp] theorem Memory.read_write (m : Memory) (a b : Nat) (v : Word) :
    (m.write a v).read b = if b = a then v else m.read b := by
  unfold Memory.write
  by_cases hv : v = Memory.unlisted
  · rw [if_pos hv, Memory.read_erase, hv]
  · rw [if_neg hv]
    by_cases hb : b = a
    · subst hb; rw [if_pos rfl, Memory.read_insert_erase]
    · rw [if_neg hb, Memory.read_insert_other _ _ _ _ hb, Memory.read_erase, if_neg hb]

/-- Reading a machine word after a write. -/
@[simp] theorem State.readMem_writeMem (s : State) (a v x : Word) :
    (s.writeMem a v).readMem x = if x = a then v else s.readMem x := by
  simp [State.readMem, BitVec.toNat_inj]

/-! ### The canonical form -/

theorem Memory.wfFrom_mono (m : Memory) {lo hi : Nat} (h : hi ≤ lo) (w : Memory.wfFrom lo m = true) :
    Memory.wfFrom hi m = true := by
  cases m with
  | nil => rfl
  | cons p rest =>
    simp only [Memory.wfFrom, Bool.and_eq_true, decide_eq_true_eq] at w ⊢
    exact ⟨⟨h.trans w.1.1, w.1.2⟩, w.2⟩

theorem Memory.wfFrom_erase (m : Memory) (lo a : Nat) (w : Memory.wfFrom lo m = true) :
    Memory.wfFrom lo (m.erase a) = true := by
  induction m generalizing lo with
  | nil => rfl
  | cons p rest ih =>
    obtain ⟨k, v⟩ := p
    simp only [Memory.wfFrom, Bool.and_eq_true, decide_eq_true_eq] at w
    by_cases hk : k = a
    · rw [Memory.erase, if_pos hk]
      exact Memory.wfFrom_mono _ (by omega) (ih _ w.2)
    · rw [Memory.erase, if_neg hk]
      simp only [Memory.wfFrom, Bool.and_eq_true, decide_eq_true_eq]
      exact ⟨w.1, ih _ w.2⟩

theorem Memory.wfFrom_insert (m : Memory) (lo a : Nat) (v : Word) (hv : v ≠ Memory.unlisted) (hlo : lo ≤ a)
    (w : Memory.wfFrom lo (m.erase a) = true) : Memory.wfFrom lo ((m.erase a).insert a v) = true := by
  induction m generalizing lo with
  | nil => simp [Memory.erase, Memory.insert, Memory.wfFrom, hlo, hv]
  | cons p rest ih =>
    obtain ⟨k, x⟩ := p
    by_cases hk : k = a
    · rw [Memory.erase, if_pos hk] at w ⊢
      exact ih lo hlo w
    · rw [Memory.erase, if_neg hk] at w ⊢
      simp only [Memory.wfFrom, Bool.and_eq_true, decide_eq_true_eq] at w
      by_cases hl : a < k
      · simp only [Memory.insert, if_pos hl, Memory.wfFrom, Bool.and_eq_true, decide_eq_true_eq]
        exact ⟨⟨hlo, hv⟩, ⟨⟨hl, w.1.2⟩, w.2⟩⟩
      · simp only [Memory.insert, if_neg hl, Memory.wfFrom, Bool.and_eq_true, decide_eq_true_eq]
        exact ⟨w.1, ih (k + 1) (by omega) w.2⟩

theorem Memory.inRange_erase (m : Memory) (a : Nat) (w : Memory.inRange m = true) :
    Memory.inRange (m.erase a) = true := by
  induction m with
  | nil => rfl
  | cons p rest ih =>
    obtain ⟨k, v⟩ := p
    simp only [Memory.inRange, Bool.and_eq_true, decide_eq_true_eq] at w
    by_cases hk : k = a
    · rw [Memory.erase, if_pos hk]; exact ih w.2
    · rw [Memory.erase, if_neg hk]
      simp only [Memory.inRange, Bool.and_eq_true, decide_eq_true_eq]
      exact ⟨w.1, ih w.2⟩

theorem Memory.inRange_insert (m : Memory) (a : Nat) (v : Word) (ha : a < Config.memoryWords)
    (w : Memory.inRange m = true) : Memory.inRange (m.insert a v) = true := by
  induction m with
  | nil => simp [Memory.insert, Memory.inRange, ha]
  | cons p rest ih =>
    obtain ⟨k, x⟩ := p
    simp only [Memory.inRange, Bool.and_eq_true, decide_eq_true_eq] at w
    by_cases hl : a < k
    · simp [Memory.insert, hl, Memory.inRange, ha, w.1, w.2]
    · simp [Memory.insert, hl, Memory.inRange, w.1, ih w.2]

/-- A write keeps the canonical form. -/
theorem Memory.wf_write (m : Memory) (a : Nat) (v : Word) (ha : a < Config.memoryWords) (w : m.wf = true) :
    (m.write a v).wf = true := by
  simp only [Memory.wf, Bool.and_eq_true] at w ⊢
  unfold Memory.write
  have he := Memory.wfFrom_erase m 0 a w.1
  have hr := Memory.inRange_erase m a w.2
  by_cases hv : v = Memory.unlisted
  · rw [if_pos hv]; exact ⟨he, hr⟩
  · rw [if_neg hv]
    exact ⟨Memory.wfFrom_insert m 0 a v hv (Nat.zero_le _) he, Memory.inRange_insert _ a v ha hr⟩

/-- A write to a machine address keeps the canonical form. -/
theorem Memory.wf_write_word (m : Memory) (a v : Word) (w : m.wf = true) : (m.write a.toNat v).wf = true :=
  Memory.wf_write m a.toNat v a.isLt w

theorem Memory.wfFrom_ofWords (ws : List Word) (base : Nat) : Memory.wfFrom base (Memory.ofWords base ws) = true := by
  induction ws generalizing base with
  | nil => rfl
  | cons w ws ih =>
    by_cases hw : w = Memory.unlisted
    · rw [Memory.ofWords, if_pos hw]; exact Memory.wfFrom_mono _ (Nat.le_succ _) (ih _)
    · rw [Memory.ofWords, if_neg hw]
      simp only [Memory.wfFrom, Bool.and_eq_true, decide_eq_true_eq]
      exact ⟨⟨le_refl _, hw⟩, ih _⟩

theorem Memory.inRange_ofWords (ws : List Word) (base : Nat) (h : base + ws.length ≤ Config.memoryWords) :
    Memory.inRange (Memory.ofWords base ws) = true := by
  induction ws generalizing base with
  | nil => rfl
  | cons w ws ih =>
    rw [List.length_cons] at h
    by_cases hw : w = Memory.unlisted
    · rw [Memory.ofWords, if_pos hw]; exact ih _ (by omega)
    · rw [Memory.ofWords, if_neg hw]
      simp only [Memory.inRange, Bool.and_eq_true, decide_eq_true_eq]
      exact ⟨by omega, ih _ (by omega)⟩

/-- An image that fits is loaded in canonical form. -/
theorem Memory.wf_ofWords (ws : List Word) (h : ws.length ≤ Config.memoryWords) :
    (Memory.ofWords 0 ws).wf = true := by
  simp only [Memory.wf, Bool.and_eq_true]
  exact ⟨Memory.wfFrom_ofWords ws 0, Memory.inRange_ofWords ws 0 (by omega)⟩

/-- What a loaded memory reads as, below and from its base on. -/
theorem Memory.read_ofWords (ws : List Word) (base a : Nat) :
    (Memory.ofWords base ws).read a = if base ≤ a then ws.getD (a - base) Memory.unlisted else Memory.unlisted := by
  induction ws generalizing base with
  | nil => simp [Memory.ofWords, Memory.read]
  | cons w ws ih =>
    by_cases hw : w = Memory.unlisted
    · rw [Memory.ofWords, if_pos hw, ih]
      rcases Nat.lt_trichotomy a base with h | h | h
      · simp [show ¬ base ≤ a by omega, show ¬ base + 1 ≤ a by omega]
      · subst h; simp [hw]
      · obtain ⟨d, rfl⟩ : ∃ d, a = base + 1 + d := ⟨a - (base + 1), by omega⟩
        simp [show base + 1 + d - base = d + 1 by omega, show base ≤ base + 1 + d by omega]
    · rw [Memory.ofWords, if_neg hw, Memory.read, ih]
      rcases Nat.lt_trichotomy a base with h | h | h
      · simp [show ¬ base = a by omega, show ¬ base ≤ a by omega, show ¬ base + 1 ≤ a by omega]
      · subst h; simp
      · obtain ⟨d, rfl⟩ : ∃ d, a = base + 1 + d := ⟨a - (base + 1), by omega⟩
        simp [show base + 1 + d - base = d + 1 by omega, show base ≤ base + 1 + d by omega,
          show ¬ base = base + 1 + d by omega]

end Sys2Proof.Machine
end

