-- ==== Sys2Proof/Laws/Operands.lean ====
section
/-! SUPPORT. What reading and writing through a handle, preparing an instruction and each shared operation can do, said
once for each. -/

namespace Sys2Proof.Machine

/-! ### Writing through a handle (R132) -/

/-- A register after a write through a handle. -/
@[simp] theorem wr_readReg (h : Handle) (v : Word) (s : State) (q : Reg) :
    (wr h v s).readReg q = if h = .reg q then v else s.readReg q := by
  cases h with
  | reg r =>
    rw [wr, State.readReg_writeReg]
    by_cases hq : q = r
    · simp [hq]
    · simp [hq, Ne.symm hq]
  | ram a => simp [wr]
  | lit v => simp [wr]

/-- A memory word after a write through a handle. -/
@[simp] theorem wr_readMem (h : Handle) (v : Word) (s : State) (x : Word) :
    (wr h v s).readMem x = if h = .ram x then v else s.readMem x := by
  cases h with
  | reg r => simp [wr]
  | ram a =>
    rw [wr, State.readMem_writeMem]
    by_cases hx : x = a
    · simp [hx]
    · simp [hx, Ne.symm hx]
  | lit v => simp [wr]

@[simp] theorem wr_skip (h : Handle) (v : Word) (s : State) : (wr h v s).skip = s.skip := by cases h <;> simp [wr]
@[simp] theorem wr_cycles (h : Handle) (v : Word) (s : State) : (wr h v s).cycles = s.cycles := by cases h <;> simp [wr]
@[simp] theorem wr_img (h : Handle) (v : Word) (s : State) : (wr h v s).img = s.img := by cases h <;> simp [wr]
@[simp] theorem wr_litWrite (h : Handle) (v : Word) (s : State) : (wr h v s).litWrite = s.litWrite := by
  cases h <;> simp [wr]

/-- The memory after a write through a handle: as before unless the handle is a memory word. -/
theorem wr_mem (h : Handle) (v : Word) (s : State) :
    (wr h v s).mem = match h with
      | .reg _ => s.mem
      | .ram a => s.mem.write a.toNat v
      | .lit _ => s.mem := by
  cases h <;> simp [wr]

/-- A write through a handle keeps the canonical form of memory. -/
theorem wr_mem_wf (h : Handle) (v : Word) (s : State) (w : s.mem.wf = true) : (wr h v s).mem.wf = true := by
  rw [wr_mem]
  cases h with
  | reg r => exact w
  | ram a => exact Memory.wf_write_word _ _ _ w
  | lit v => exact w

/-! ### The prepared state (R128, R130, R134) -/

@[simp] theorem prepareBasic_readGen (b a : Operand) (s : State) (g : GReg) :
    (prepareBasic b a s).readGen g = s.readGen g := by simp [prepareBasic]
@[simp] theorem prepareBasic_pc (b a : Operand) (s : State) :
    (prepareBasic b a s).pc = s.pc + 1 + BitVec.ofNat 16 (a.trailingCount + b.trailingCount) := by simp [prepareBasic]
@[simp] theorem prepareBasic_sp (b a : Operand) (s : State) :
    (prepareBasic b a s).sp = s.sp + ((spEffect .A a).sum + (spEffect .B b).sum) := by simp [prepareBasic]
@[simp] theorem prepareBasic_ex (b a : Operand) (s : State) : (prepareBasic b a s).ex = s.ex := by simp [prepareBasic]
@[simp] theorem prepareBasic_mem (b a : Operand) (s : State) : (prepareBasic b a s).mem = s.mem := by simp [prepareBasic]
@[simp] theorem prepareBasic_skip (b a : Operand) (s : State) : (prepareBasic b a s).skip = s.skip := by
  simp [prepareBasic]
@[simp] theorem prepareBasic_cycles (b a : Operand) (s : State) :
    (prepareBasic b a s).cycles = s.cycles + (a.trailingCount + b.trailingCount) := by simp [prepareBasic]
@[simp] theorem prepareBasic_img (b a : Operand) (s : State) : (prepareBasic b a s).img = s.img := by simp [prepareBasic]
@[simp] theorem prepareBasic_litWrite (b a : Operand) (s : State) : (prepareBasic b a s).litWrite = s.litWrite := by
  simp [prepareBasic]
@[simp] theorem prepareBasic_readMem (b a : Operand) (s : State) (x : Word) :
    (prepareBasic b a s).readMem x = s.readMem x := by simp [State.readMem]

@[simp] theorem prepareSpecial_readGen (a : Operand) (s : State) (g : GReg) :
    (prepareSpecial a s).readGen g = s.readGen g := by simp [prepareSpecial]
@[simp] theorem prepareSpecial_pc (a : Operand) (s : State) :
    (prepareSpecial a s).pc = s.pc + 1 + BitVec.ofNat 16 a.trailingCount := by simp [prepareSpecial]
@[simp] theorem prepareSpecial_sp (a : Operand) (s : State) :
    (prepareSpecial a s).sp = s.sp + (spEffect .A a).sum := by simp [prepareSpecial]
@[simp] theorem prepareSpecial_ex (a : Operand) (s : State) : (prepareSpecial a s).ex = s.ex := by simp [prepareSpecial]
@[simp] theorem prepareSpecial_mem (a : Operand) (s : State) : (prepareSpecial a s).mem = s.mem := by
  simp [prepareSpecial]
@[simp] theorem prepareSpecial_skip (a : Operand) (s : State) : (prepareSpecial a s).skip = s.skip := by
  simp [prepareSpecial]
@[simp] theorem prepareSpecial_cycles (a : Operand) (s : State) :
    (prepareSpecial a s).cycles = s.cycles + a.trailingCount := by simp [prepareSpecial]
@[simp] theorem prepareSpecial_img (a : Operand) (s : State) : (prepareSpecial a s).img = s.img := by
  simp [prepareSpecial]
@[simp] theorem prepareSpecial_litWrite (a : Operand) (s : State) : (prepareSpecial a s).litWrite = s.litWrite := by
  simp [prepareSpecial]
@[simp] theorem prepareSpecial_readMem (a : Operand) (s : State) (x : Word) :
    (prepareSpecial a s).readMem x = s.readMem x := by simp [State.readMem]

/-! ### The shared operations: each register, each memory word and each other field they leave -/

/-- Everything `copy` does (R140 to R142). -/
theorem copy_spec (b a : Operand) (s : State) :
    (∀ q, (copy b a s).readReg q = if handleB b a s = .reg q then rd (handleA a s) (prepareBasic b a s)
      else (prepareBasic b a s).readReg q) ∧
    (∀ x, (copy b a s).readMem x = if handleB b a s = .ram x then rd (handleA a s) (prepareBasic b a s)
      else s.readMem x) ∧
    (copy b a s).skip = s.skip ∧ (copy b a s).img = s.img ∧ (copy b a s).litWrite = s.litWrite ∧
    (copy b a s).cycles = s.cycles + (a.trailingCount + b.trailingCount) := by
  simp [copy, copyOn]

/-- `copy` keeps the canonical form of memory. -/
theorem copy_mem_wf (b a : Operand) (s : State) (w : s.mem.wf = true) : (copy b a s).mem.wf = true :=
  wr_mem_wf _ _ _ (by simpa using w)

/-- What `operate f` computes from the operands' values and EX (R150). -/
def operateResult (f : NumFn) (b a : Operand) (s : State) : NumResult :=
  f (rd (handleB b a s) (prepareBasic b a s)) (rd (handleA a s) (prepareBasic b a s)) s.ex

/-- Everything `operate f` does (R150). -/
theorem operate_spec (f : NumFn) (b a : Operand) (s : State) :
    (∀ q, q ≠ .ex → (operate f b a s).readReg q = if handleB b a s = .reg q then (operateResult f b a s).result
      else (prepareBasic b a s).readReg q) ∧
    (operate f b a s).ex = (operateResult f b a s).newEx.getD
      (if handleB b a s = .reg .ex then (operateResult f b a s).result else s.ex) ∧
    (∀ x, (operate f b a s).readMem x = if handleB b a s = .ram x then (operateResult f b a s).result
      else s.readMem x) ∧
    (operate f b a s).skip = s.skip ∧ (operate f b a s).img = s.img ∧ (operate f b a s).litWrite = s.litWrite ∧
    (operate f b a s).cycles = s.cycles + (a.trailingCount + b.trailingCount) := by
  refine ⟨?_, ?_, ?_, ?_, ?_, ?_, ?_⟩
  · intro q hq
    simp [operate, operateOn, operateResult, hq]
  · have h := wr_readReg (handleB b a s) (operateResult f b a s).result (prepareBasic b a s) .ex
    simp only [State.readReg, prepareBasic_ex] at h
    simp only [operate, operateOn, State.writeEx_ex, prepareBasic_ex]
    rw [← h]
    rfl
  · intro x; simp [operate, operateOn, operateResult]
  · simp [operate, operateOn]
  · simp [operate, operateOn]
  · simp [operate, operateOn]
  · simp [operate, operateOn]

/-- `operate` keeps the canonical form of memory. -/
theorem operate_mem_wf (f : NumFn) (b a : Operand) (s : State) (w : s.mem.wf = true) :
    (operate f b a s).mem.wf = true := by
  simp only [operate, operateOn, State.writeEx_mem]
  exact wr_mem_wf _ _ _ (by simpa using w)

/-- Everything a conditional does (R180): the prepared state, with the skip flag set if the test is false. -/
theorem testAndSkip_spec (test : Word → Word → Bool) (b a : Operand) (s : State) :
    testAndSkip test b a s =
      { prepareBasic b a s with
        skip := s.skip || !test (rd (handleB b a s) (prepareBasic b a s)) (rd (handleA a s) (prepareBasic b a s)) } := by
  simp only [testAndSkip, testOn]
  split
  · rename_i h; simp only [h, Bool.not_true, Bool.or_false, ← prepareBasic_skip b a s]
  · rename_i h; simp only [Bool.not_eq_true] at h; simp only [h, Bool.not_false, Bool.or_true]; rfl

/-- Everything a call does (R196). -/
theorem call_spec (a : Operand) (s : State) :
    (call a s).pc = rd (handleA a s) (prepareSpecial a s) ∧
    (call a s).sp = (prepareSpecial a s).sp - 1 ∧
    (call a s).ex = s.ex ∧ (∀ g, (call a s).readGen g = s.readGen g) ∧
    (∀ x, (call a s).readMem x = if x = (prepareSpecial a s).sp - 1 then s.pc + 1 + BitVec.ofNat 16 a.trailingCount
      else s.readMem x) ∧
    (call a s).skip = s.skip ∧ (call a s).img = s.img ∧ (call a s).litWrite = s.litWrite ∧
    (call a s).cycles = s.cycles + a.trailingCount := by
  refine ⟨rfl, rfl, ?_, ?_, ?_, ?_, ?_, ?_, ?_⟩
  · simp [call, callOn]
  · intro g
    have h : (call a s).readGen g = ((prepareSpecial a s).push (prepareSpecial a s).pc).readGen g := by cases g <;> rfl
    rw [h]; simp
  · intro x
    have h : (call a s).readMem x = ((prepareSpecial a s).push (prepareSpecial a s).pc).readMem x := rfl
    rw [h]
    have h2 : (prepareSpecial a s).push (prepareSpecial a s).pc =
        { prepareSpecial a s with sp := (prepareSpecial a s).sp - 1 }.writeMem ((prepareSpecial a s).sp - 1)
          (prepareSpecial a s).pc := rfl
    rw [h2, State.readMem_writeMem]
    have h3 : { prepareSpecial a s with sp := (prepareSpecial a s).sp - 1 }.readMem x = s.readMem x := by
      simp [State.readMem]
    rw [h3, prepareSpecial_pc]
  · simp [call, callOn]
  · simp [call, callOn]
  · simp [call, callOn]
  · simp [call, callOn]

/-- `call` keeps the canonical form of memory. -/
theorem call_mem_wf (a : Operand) (s : State) (w : s.mem.wf = true) : (call a s).mem.wf = true := by
  have h : (call a s).mem = (prepareSpecial a s).mem.write ((prepareSpecial a s).sp - 1).toNat (prepareSpecial a s).pc := rfl
  rw [h]
  exact Memory.wf_write_word _ _ _ (by simpa using w)

/-- Everything a skip does (R129). -/
theorem skipOver_spec (i : Instr) (s : State) :
    skipOver i s =
      { s with
        pc := s.pc + 1 + BitVec.ofNat 16 i.trailingCount
        cycles := s.cycles + 1
        skip := i.conditional } := rfl

end Sys2Proof.Machine
end

