-- ==== Sys2Proof/Laws/Exec.lean ====
section
/-! SUPPORT. The 27 two-operand instructions said as four shapes, so that a proof about all of them has four cases and
not 27; what a step can do, said once. -/

namespace Sys2Proof.Machine

/-- The four shapes of the two-operand instructions. -/
inductive Family where
  | copy
  | copyAndMove (d : Word)
  | operate (f : NumFn)
  | test (t : Word → Word → Bool)

/-- The shape of each operation. -/
def familyOf : BasicOp → Family
  | .set => .copy
  | .sti => .copyAndMove 1
  | .std => .copyAndMove (-1)
  | .add => .operate num.add
  | .sub => .operate num.sub
  | .mul => .operate num.mul
  | .mli => .operate num.mli
  | .div => .operate num.div
  | .dvi => .operate num.dvi
  | .mod => .operate num.mod
  | .mdi => .operate num.mdi
  | .and => .operate num.and
  | .bor => .operate num.bor
  | .xor => .operate num.xor
  | .shr => .operate num.shr
  | .asr => .operate num.asr
  | .shl => .operate num.shl
  | .adx => .operate num.adx
  | .sbx => .operate num.sbx
  | .ifb => .test testIfb
  | .ifc => .test testIfc
  | .ife => .test testIfe
  | .ifn => .test testIfn
  | .ifg => .test testIfg
  | .ifa => .test testIfa
  | .ifl => .test testIfl
  | .ifu => .test testIfu

/-- What an instruction of a shape does before its cycles are counted. -/
def Family.run (b a : Operand) (s : State) : Family → State
  | .copy => Machine.copy b a s
  | .copyAndMove d => (Machine.copy b a s).bumpIJ d
  | .operate f => Machine.operate f b a s
  | .test t => testAndSkip t b a s

/-- Every two-operand instruction is its shape, charged. -/
theorem exec_ofBasic (op : BasicOp) (b a : Operand) (s : State) :
    exec (Instr.ofBasic op b a) s = .next (((familyOf op).run b a s).charge (.basic op)) := by
  cases op <;> rfl

theorem exec_jsr (a : Operand) (s : State) : exec (.jsr a) s = .next ((call a s).charge .jsr) := rfl

theorem exec_halt (f : BitVec 6) (s : State) : exec (.halt f) s = .next s := rfl

/-- Every instruction completes in every state: the cases of its next state. -/
theorem exec_cases (i : Instr) (s : State) :
    (∃ op b a, i = Instr.ofBasic op b a ∧ exec i s = .next (((familyOf op).run b a s).charge (.basic op))) ∨
    (∃ a, i = .jsr a ∧ exec i s = .next ((call a s).charge .jsr)) ∨
    (∃ f, i = .halt f ∧ exec i s = .next s) := by
  have h := Instr.eq_of_shape i
  cases hs : i.shape with
  | basic op b a =>
    rw [hs] at h
    exact .inl ⟨op, b, a, h, by rw [h]; exact exec_ofBasic op b a s⟩
  | jsr a =>
    rw [hs] at h
    exact .inr (.inl ⟨a, h, by rw [h]; rfl⟩)
  | halt f =>
    rw [hs] at h
    exact .inr (.inr ⟨f, h, by rw [h]; rfl⟩)

/-- The fields no two-operand instruction writes, the cycles it counts and the canonical form it keeps. -/
theorem Family.run_spec (k : Family) (b a : Operand) (s : State) :
    (k.run b a s).img = s.img ∧ (k.run b a s).litWrite = s.litWrite ∧
    (k.run b a s).cycles = s.cycles + (a.trailingCount + b.trailingCount) ∧
    (s.mem.wf = true → (k.run b a s).mem.wf = true) := by
  cases k with
  | copy =>
    obtain ⟨_, _, _, h4, h5, h6⟩ := copy_spec b a s
    exact ⟨h4, h5, h6, copy_mem_wf b a s⟩
  | copyAndMove d =>
    obtain ⟨_, _, _, h4, h5, h6⟩ := copy_spec b a s
    exact ⟨h4, h5, h6, copy_mem_wf b a s⟩
  | operate f =>
    obtain ⟨_, _, _, _, h5, h6, h7⟩ := operate_spec f b a s
    exact ⟨h5, h6, h7, operate_mem_wf f b a s⟩
  | test t =>
    rw [Family.run, testAndSkip_spec]
    exact ⟨prepareBasic_img b a s, prepareBasic_litWrite b a s, prepareBasic_cycles b a s, by simp⟩

/-- Every instruction costs at least one cycle, but for the halt word. -/
theorem cost_pos (op : BasicOp) : 0 < cost (.basic op) := by cases op <;> decide

/-- Everything a step can do: fault on words that do not decode, step over an instruction, or execute it. -/
theorem step_cases (s : State) :
    (∃ e, decode s.fetch = .error e ∧ step s = .fault (.unknownOpcode s.pc (s.readMem s.pc))) ∨
    (∃ i rest, decode s.fetch = .ok (i, rest) ∧ s.skip = true ∧ i.isHalt = false ∧ step s = .next (skipOver i s)) ∨
    (∃ i rest, decode s.fetch = .ok (i, rest) ∧ (s.skip = false ∨ i.isHalt = true) ∧ step s = exec i s) := by
  cases hd : decode s.fetch with
  | error e => exact .inl ⟨e, rfl, by simp only [step, stepOnce, hd]; rfl⟩
  | ok p =>
    obtain ⟨i, rest⟩ := p
    cases hs : s.skip with
    | true =>
      cases hh : i.isHalt with
      | false => exact .inr (.inl ⟨i, rest, rfl, rfl, hh, by simp [step, stepOnce, hd, hs, hh]⟩)
      | true => exact .inr (.inr ⟨i, rest, rfl, .inr hh, by simp [step, stepOnce, hd, hs, hh]⟩)
    | false => exact .inr (.inr ⟨i, rest, rfl, .inl rfl, by simp [step, stepOnce, hd, hs]⟩)

/-! ### Runs of `runFor` -/

@[simp] theorem runFor_zero (s : State) : runFor 0 s = .stopped s := rfl

theorem runFor_succ (n : Nat) (s : State) :
    runFor (n + 1) s =
      if isHaltWord (s.readMem s.pc) then .halted s
      else
        match step s with
        | .next s' => runFor n s'
        | .fault (.unknownOpcode p w) => .faulted p w s
        | .refused r => .refused r s := rfl

/-! ### The host's bounded run, over `Sys2Proof.core` -/

theorem host_run_next (M : Host.Core) (k : Nat) (s t : M.State) (h : M.step s = .next t) :
    M.run (k + 1) s = M.run k t := by
  rw [Host.Core.run, h]

/-- A run whose first step answers a next state goes on from it. -/
theorem core_run_next {k : Nat} {s t : State} (h : step s = .next t) :
    Sys2Proof.core.run (k + 1) s = Sys2Proof.core.run k t := host_run_next Sys2Proof.core k s t h

/-- A run of no steps. -/
theorem core_run_zero (s : State) : Sys2Proof.core.run 0 s = .next s := rfl

end Sys2Proof.Machine
end

