-- ==== Sys2Proof/Laws/Params.lean ====
section
/-! SUPPORT. The step under parameters (R7) at the spec's defaults is the machine's step. -/

namespace Sys2Proof.Machine

/-- An operand has a trailing word exactly if its code consumes one (R76). -/
theorem operandOfCode_trailingCount (c : BitVec 6) (nw : Word) :
    (operandOfCode c nw).trailingCount = (consumesNext c).toNat := by
  obtain ⟨⟨k, hk⟩⟩ := c
  interval_cases k <;> rfl

/-- Where a code consumes no trailing word the next word does not matter. -/
theorem operandOfCode_of_not_consumes {c : BitVec 6} (h : consumesNext c = false) (x y : Word) :
    operandOfCode c x = operandOfCode c y := by
  obtain ⟨⟨k, hk⟩⟩ := c
  interval_cases k <;> first | rfl | exact Bool.noConfusion (show true = false from h)

/-- With a word at hand an operand decodes, and the word is used up exactly if the operand has a trailing word. -/
theorem decodeOperand_cons (c : BitVec 6) (x : Word) (ws : List Word) :
    decodeOperand c (x :: ws) = some (operandOfCode c x, (x :: ws).drop (operandOfCode c x).trailingCount) := by
  unfold decodeOperand
  rw [operandOfCode_trailingCount]
  cases hc : consumesNext c with
  | true => rfl
  | false => rw [operandOfCode_of_not_consumes hc 0 x]; rfl

/-- The operands at PC, as `stepWith` takes them, are those `decodeOperand` reads from the fetched words. -/
theorem decodeOperands_fetch (s : State) (cA cB : BitVec 6) :
    ∃ mid rest, decodeOperand cA [s.readMem (s.pc + 1), s.readMem (s.pc + 2)] = some (s.operandAt cA 0, mid) ∧
      decodeOperand cB mid = some (s.operandAt cB (s.operandAt cA 0).trailingCount, rest) := by
  have hA := decodeOperand_cons cA (s.readMem (s.pc + 1)) [s.readMem (s.pc + 2)]
  have hn := operandOfCode_trailingCount cA (s.readMem (s.pc + 1))
  have h0 : s.operandAt cA 0 = operandOfCode cA (s.readMem (s.pc + 1)) := rfl
  rw [← h0] at hA hn
  rw [hn] at hA ⊢
  cases hc : consumesNext cA <;> rw [hc] at hA
  · exact ⟨_, _, hA, decodeOperand_cons _ _ _⟩
  · exact ⟨_, _, hA, decodeOperand_cons _ _ _⟩

/-- Every two-operand instruction does what its entry of the default table does. -/
theorem exec_ofBasic_entry (op : BasicOp) (b a : Operand) (s : State) :
    exec (Instr.ofBasic op b a) s = .next (runBasic defaultParams (basicEntry op) b a s) := by
  cases op <;> rfl

/-- JSR does what its entry of the default table does. -/
theorem exec_jsr_entry (a : Operand) (s : State) :
    exec (.jsr a) s = .next (runSpecial defaultParams jsrEntry a s) := rfl

/-- With every parameter at the spec's default, the step under parameters is the machine's step, in every state. -/
theorem stepWith_default (s : State) : stepWith defaultParams s = step s := by
  obtain ⟨mid, rest, hA, hB⟩ := decodeOperands_fetch s (fieldA (s.readMem s.pc)) ((fieldB (s.readMem s.pc)).setWidth 6)
  simp only [step, stepOnce, stepWith, State.fetch]
  by_cases hO : fieldO (s.readMem s.pc) = 0
  · by_cases h0 : fieldB (s.readMem s.pc) = 0
    · rw [decode_halt _ hO h0, if_pos hO, if_pos h0]
      cases s.skip <;> rfl
    · rw [if_pos hO, if_neg h0]
      by_cases h1 : fieldB (s.readMem s.pc) = 1
      · rw [decode_jsr _ hO h1, hA]
        simp only [defaultParams, defaultIst, h1, if_true]
        cases s.skip <;> rfl
      · rw [decode_unknownSpecial _ hO h0 h1]
        simp only [defaultParams, defaultIst, h1, if_false]
  · rw [if_neg hO]
    cases hc : BasicOp.ofCode (fieldO (s.readMem s.pc)) with
    | none =>
      rw [decode_unknownBasic _ hO hc]
      simp only [defaultParams, defaultIst, hc, Option.map_none]
    | some op =>
      rw [decode_basic _ hO hc, hA]
      simp only [hB]
      simp only [defaultParams, defaultIst, hc, Option.map_some]
      cases s.skip
      · cases op <;> rfl
      · cases op <;> rfl

/-- Runs under the default parameters are the machine's runs. -/
theorem runWith_default (n : Nat) (s : State) : runWith defaultParams n s = runFor n s := by
  have h : stepWith defaultParams = step := funext stepWith_default
  rw [runWith, runFor, h]

end Sys2Proof.Machine
end

