-- ==== Sys2Proof/Laws/PerInstr.lean ====
section
/-! SUPPORT. Statements for all instructions, one lemma per constructor (30_encoding.md R70, R78). -/

namespace Sys2Proof.Laws

/-- The encoding of a well-formed instruction is its instruction word and its trailing words, at most three words
(R70), and, but for a halt word, as long as the instruction word alone says (R78). -/
def EncodedLength.Statement (i : Instr) : Prop :=
  i.wellFormed = true →
    (encode i).length = 1 + i.trailingCount ∧ (encode i).length ≤ 3 ∧
    (i.isHalt = false → (encode i).length = lengthOfWord ((encode i).headD 0))

theorem EncodedLength.basic (op : BasicOp) (b a : Operand) : EncodedLength.Statement (Instr.ofBasic op b a) := by
  intro h
  rw [Instr.wellFormed_ofBasic] at h
  have ha := a.trailingCount_le_one
  have hb := b.trailingCount_le_one
  have hc := a.consumesNext_code
  have hd := b.consumesNext_code
  simp only [Operand.trailingCount] at ha hb hc hd
  simp only [encode, Instr.trailingCount, Instr.isHalt, Instr.shape_ofBasic, List.length_cons, List.length_append,
    List.headD_cons, lengthOfWord, fieldO_packBasic, fieldA_packBasic, fieldB_packBasic, Operand.setWidth_code b h,
    op.code_ne_zero, if_false, hc, hd, Operand.trailingCount]
  exact ⟨by omega, by omega, fun _ => by omega⟩

theorem EncodedLength.set (b a : Operand) : EncodedLength.Statement (.set b a) := EncodedLength.basic .set b a
theorem EncodedLength.add (b a : Operand) : EncodedLength.Statement (.add b a) := EncodedLength.basic .add b a
theorem EncodedLength.sub (b a : Operand) : EncodedLength.Statement (.sub b a) := EncodedLength.basic .sub b a
theorem EncodedLength.mul (b a : Operand) : EncodedLength.Statement (.mul b a) := EncodedLength.basic .mul b a
theorem EncodedLength.mli (b a : Operand) : EncodedLength.Statement (.mli b a) := EncodedLength.basic .mli b a
theorem EncodedLength.div (b a : Operand) : EncodedLength.Statement (.div b a) := EncodedLength.basic .div b a
theorem EncodedLength.dvi (b a : Operand) : EncodedLength.Statement (.dvi b a) := EncodedLength.basic .dvi b a
theorem EncodedLength.mod (b a : Operand) : EncodedLength.Statement (.mod b a) := EncodedLength.basic .mod b a
theorem EncodedLength.mdi (b a : Operand) : EncodedLength.Statement (.mdi b a) := EncodedLength.basic .mdi b a
theorem EncodedLength.and (b a : Operand) : EncodedLength.Statement (.and b a) := EncodedLength.basic .and b a
theorem EncodedLength.bor (b a : Operand) : EncodedLength.Statement (.bor b a) := EncodedLength.basic .bor b a
theorem EncodedLength.xor (b a : Operand) : EncodedLength.Statement (.xor b a) := EncodedLength.basic .xor b a
theorem EncodedLength.shr (b a : Operand) : EncodedLength.Statement (.shr b a) := EncodedLength.basic .shr b a
theorem EncodedLength.asr (b a : Operand) : EncodedLength.Statement (.asr b a) := EncodedLength.basic .asr b a
theorem EncodedLength.shl (b a : Operand) : EncodedLength.Statement (.shl b a) := EncodedLength.basic .shl b a
theorem EncodedLength.ifb (b a : Operand) : EncodedLength.Statement (.ifb b a) := EncodedLength.basic .ifb b a
theorem EncodedLength.ifc (b a : Operand) : EncodedLength.Statement (.ifc b a) := EncodedLength.basic .ifc b a
theorem EncodedLength.ife (b a : Operand) : EncodedLength.Statement (.ife b a) := EncodedLength.basic .ife b a
theorem EncodedLength.ifn (b a : Operand) : EncodedLength.Statement (.ifn b a) := EncodedLength.basic .ifn b a
theorem EncodedLength.ifg (b a : Operand) : EncodedLength.Statement (.ifg b a) := EncodedLength.basic .ifg b a
theorem EncodedLength.ifa (b a : Operand) : EncodedLength.Statement (.ifa b a) := EncodedLength.basic .ifa b a
theorem EncodedLength.ifl (b a : Operand) : EncodedLength.Statement (.ifl b a) := EncodedLength.basic .ifl b a
theorem EncodedLength.ifu (b a : Operand) : EncodedLength.Statement (.ifu b a) := EncodedLength.basic .ifu b a
theorem EncodedLength.adx (b a : Operand) : EncodedLength.Statement (.adx b a) := EncodedLength.basic .adx b a
theorem EncodedLength.sbx (b a : Operand) : EncodedLength.Statement (.sbx b a) := EncodedLength.basic .sbx b a
theorem EncodedLength.sti (b a : Operand) : EncodedLength.Statement (.sti b a) := EncodedLength.basic .sti b a
theorem EncodedLength.std (b a : Operand) : EncodedLength.Statement (.std b a) := EncodedLength.basic .std b a

theorem EncodedLength.jsr (a : Operand) : EncodedLength.Statement (.jsr a) := by
  intro _
  have ha := a.trailingCount_le_one
  have hc := a.consumesNext_code
  simp only [Operand.trailingCount] at ha hc
  simp only [encode, Instr.trailingCount, Instr.isHalt, Instr.shape, List.length_cons, List.headD_cons, lengthOfWord,
    fieldO_packSpecial, fieldA_packSpecial, if_true, hc, Operand.trailingCount]
  exact ⟨by omega, by omega, fun _ => by omega⟩

theorem EncodedLength.halt (field : BitVec 6) : EncodedLength.Statement (.halt field) :=
  fun _ => ⟨rfl, by simp [encode, Instr.shape], fun h => by simp [Instr.isHalt, Instr.shape] at h⟩

end Sys2Proof.Laws
end

