-- ==== Sys2Proof/Tests/Slice0.lean ====
section
/-! SUPPORT. Tests of the model: the well-formedness smoke, decoding words written out from the spec's encoding, at most two
single steps for each instruction with the results of 95_test_vectors.md, the assembler on the spec's samples, and a
witness for the hypotheses of every statement that has some. -/

namespace Sys2Proof.Tests

open Sys2Proof.Machine Sys2Proof.Claims

/-! ### Well-formedness: slot B cannot hold an inline literal, for any operation that has a slot B -/

/-- An ill-formed term for the one check, made with each of the 27 operations, each refused. -/
theorem test_inline_literal_in_slot_B_is_ill_formed :
    ([.set, .add, .sub, .mul, .mli, .div, .dvi, .mod, .mdi, .and, .bor, .xor, .shr, .asr, .shl, .ifb, .ifc, .ife, .ifn,
      .ifg, .ifa, .ifl, .ifu, .adx, .sbx, .sti, .std] : List BasicOp).all
      (fun op => !(Instr.ofBasic op (.inlineLit 3) (.reg .A)).wellFormed) = true := by decide

theorem test_inline_literal_in_slot_A_is_well_formed :
    (Instr.set (.reg .A) (.inlineLit 3)).wellFormed = true ∧ (Instr.jsr (.inlineLit 3)).wellFormed = true := by decide

/-! ### Decoding: one word for each constructor, written out from R71 to R82 (fields `a` bits 15..10, `b` 9..5, `o` 4..0) -/

/-- The words of `OP B, A`: `a` = 00, `b` = 01. -/
theorem test_decode_moves :
    decode [0b0000000000100001] = .ok (.set (.reg .B) (.reg .A), []) ∧
    decode [0b0000000000111110] = .ok (.sti (.reg .B) (.reg .A), []) ∧
    decode [0b0000000000111111] = .ok (.std (.reg .B) (.reg .A), []) := by decide

theorem test_decode_arithmetic :
    decode [0b0000000000100010] = .ok (.add (.reg .B) (.reg .A), []) ∧
    decode [0b0000000000100011] = .ok (.sub (.reg .B) (.reg .A), []) ∧
    decode [0b0000000000100100] = .ok (.mul (.reg .B) (.reg .A), []) ∧
    decode [0b0000000000100101] = .ok (.mli (.reg .B) (.reg .A), []) ∧
    decode [0b0000000000100110] = .ok (.div (.reg .B) (.reg .A), []) ∧
    decode [0b0000000000100111] = .ok (.dvi (.reg .B) (.reg .A), []) ∧
    decode [0b0000000000101000] = .ok (.mod (.reg .B) (.reg .A), []) ∧
    decode [0b0000000000101001] = .ok (.mdi (.reg .B) (.reg .A), []) ∧
    decode [0b0000000000111010] = .ok (.adx (.reg .B) (.reg .A), []) ∧
    decode [0b0000000000111011] = .ok (.sbx (.reg .B) (.reg .A), []) := by decide

theorem test_decode_logic_and_shifts :
    decode [0b0000000000101010] = .ok (.and (.reg .B) (.reg .A), []) ∧
    decode [0b0000000000101011] = .ok (.bor (.reg .B) (.reg .A), []) ∧
    decode [0b0000000000101100] = .ok (.xor (.reg .B) (.reg .A), []) ∧
    decode [0b0000000000101101] = .ok (.shr (.reg .B) (.reg .A), []) ∧
    decode [0b0000000000101110] = .ok (.asr (.reg .B) (.reg .A), []) ∧
    decode [0b0000000000101111] = .ok (.shl (.reg .B) (.reg .A), []) := by decide

theorem test_decode_conditionals :
    decode [0b0000000000110000] = .ok (.ifb (.reg .B) (.reg .A), []) ∧
    decode [0b0000000000110001] = .ok (.ifc (.reg .B) (.reg .A), []) ∧
    decode [0b0000000000110010] = .ok (.ife (.reg .B) (.reg .A), []) ∧
    decode [0b0000000000110011] = .ok (.ifn (.reg .B) (.reg .A), []) ∧
    decode [0b0000000000110100] = .ok (.ifg (.reg .B) (.reg .A), []) ∧
    decode [0b0000000000110101] = .ok (.ifa (.reg .B) (.reg .A), []) ∧
    decode [0b0000000000110110] = .ok (.ifl (.reg .B) (.reg .A), []) ∧
    decode [0b0000000000110111] = .ok (.ifu (.reg .B) (.reg .A), []) := by decide

theorem test_decode_special :
    decode [0b0111110000100000, 0x0100] = .ok (.jsr (.litNext 0x0100), []) ∧
    decode [0b0000010000000000, 0x0100] = .ok (.halt 1, [0x0100]) := by decide

/-- Slot A over the rows of the operand-code table (R74), one row each; the other slot is register B. -/
theorem test_decode_operand_forms :
    decode [0b0001110000100001] = .ok (.set (.reg .B) (.reg .J), []) ∧
    decode [0b0010110000100001] = .ok (.set (.reg .B) (.regInd .X), []) ∧
    decode [0b0101100000100001, 7] = .ok (.set (.reg .B) (.regIndNext .I 7), []) ∧
    decode [0b0110000000100001] = .ok (.set (.reg .B) .pushPop, []) ∧
    decode [0b0110010000100001] = .ok (.set (.reg .B) .peek, []) ∧
    decode [0b0110100000100001, 7] = .ok (.set (.reg .B) (.pick 7), []) := by decide

theorem test_decode_more_operand_forms :
    decode [0b0110110000100001] = .ok (.set (.reg .B) .sp, []) ∧
    decode [0b0111000000100001] = .ok (.set (.reg .B) .pc, []) ∧
    decode [0b0111010000100001] = .ok (.set (.reg .B) .ex, []) ∧
    decode [0b0111100000100001, 7] = .ok (.set (.reg .B) (.memNext 7), []) ∧
    decode [0b0111110000100001, 7] = .ok (.set (.reg .B) (.litNext 7), []) ∧
    decode [0b1111110000100001] = .ok (.set (.reg .B) (.inlineLit 31), []) := by decide

/-- Operand A's trailing word comes first (R76; 95_test_vectors.md 2.1, `SET [X + 1], [Y + 2]`). -/
theorem test_decode_two_trailing_words :
    decode [0x5261, 0x0002, 0x0001] = .ok (.set (.regIndNext .X 1) (.regIndNext .Y 2), []) := by decide

/-- 95_test_vectors.md 2.7: illegal words, refused before any operand is looked at. -/
theorem test_decode_illegal_words :
    decode [0x0018] = .error (.unknownBasic 0x18) ∧ decode [0x0019] = .error (.unknownBasic 0x19) ∧
    decode [0x001C] = .error (.unknownBasic 0x1C) ∧ decode [0x001D] = .error (.unknownBasic 0x1D) ∧
    decode [0x0040] = .error (.unknownSpecial 2) ∧ decode [0x03E0] = .error (.unknownSpecial 0x1F) ∧
    decode [0xFFF8] = .error (.unknownBasic 0x18) := by decide

/-- The table's numbering of an instruction's bits: the first word is the low one; bits above those given are zero. -/
theorem test_decodeTableWord :
    decodeTableWord 16 0x0021 = some (.set (.reg .B) (.reg .A)) ∧
    decodeTableWord 48 0x000100025261 = some (.set (.regIndNext .X 1) (.regIndNext .Y 2)) ∧
    decodeTableWord 16 0x7C21 = some (.set (.reg .B) (.litNext 0)) ∧
    decodeTableWord 16 0x0018 = none := by decide

/-- Reading the words of S3 and of S4 back (R87). -/
theorem test_readBack :
    readBack 0xD401 = (0x01, 0x00, 0x35) ∧ readBack 0x7FC1 = (0x01, 0x1E, 0x1F) ∧
    disassemble 3 [0x7F81, 0x0003, 0x8801, 0x8C21] =
      .ok [.set .pc (.litNext 3), .set (.reg .A) (.inlineLit 2), .set (.reg .B) (.inlineLit 3)] := by decide

/-! ### One step: every expected value is a row of 95_test_vectors.md -/

/-- From reset with `ws` loaded at address 0. -/
def loaded (ws : List Word) : State := State.reset.loadWords ws

/-- The next state, where there is one. -/
def after (s : State) : Option State :=
  match step s with
  | .next t => some t
  | .fault _ => none
  | .refused _ => none

/-- B, EX and the cycle count after one step of the word `w` with B = `b`, A = `a`, EX = `ex` (2.2, 2.3). -/
def stepBA (w b a ex : Word) : Option (Word × Word × Nat) :=
  (after { loaded [w] with regB := b, regA := a, ex := ex }).map fun t => (t.regB, t.ex, t.cycles)

/-- Skip flag, PC and cycle count after one step of the conditional `w` with B = `b`, A = `a` (2.5). -/
def stepIf (w b a : Word) : Option (Bool × Word × Nat) :=
  (after { loaded [w] with regB := b, regA := a }).map fun t => (t.skip, t.pc, t.cycles)

theorem test_add_a : stepBA 0x0022 0xFFFF 0xFFFF 0x1234 = some (0xFFFE, 0x0001, 2) := by decide
theorem test_add_b : stepBA 0x0022 0x7FFF 0x0001 0x0000 = some (0x8000, 0x0000, 2) := by decide
theorem test_sub_a : stepBA 0x0023 0x8000 0x8001 0x0007 = some (0xFFFF, 0xFFFF, 2) := by decide
theorem test_sub_b : stepBA 0x0023 0x0005 0x0003 0x0000 = some (0x0002, 0x0000, 2) := by decide
theorem test_mul_a : stepBA 0x0024 0xFFFF 0xFFFF 0x0000 = some (0x0001, 0xFFFE, 2) := by decide
theorem test_mul_b : stepBA 0x0024 0x1234 0x0100 0x0000 = some (0x3400, 0x0012, 2) := by decide
theorem test_mli_a : stepBA 0x0025 0xFFFE 0x0003 0x0000 = some (0xFFFA, 0xFFFF, 2) := by decide
theorem test_mli_b : stepBA 0x0025 0x8000 0x7FFF 0x0000 = some (0x8000, 0xC000, 2) := by decide
theorem test_div_a : stepBA 0x0026 0x0007 0x0002 0x0000 = some (0x0003, 0x8000, 3) := by decide
theorem test_div_b : stepBA 0x0026 0x0005 0x0000 0x1234 = some (0x0000, 0x0000, 3) := by decide
theorem test_dvi_a : stepBA 0x0027 0xFFF9 0x0002 0x0000 = some (0xFFFD, 0x8000, 3) := by decide
theorem test_dvi_b : stepBA 0x0027 0xFFFF 0x0003 0x0000 = some (0x0000, 0xAAAB, 3) := by decide
theorem test_mod_a : stepBA 0x0028 0xFFF9 0x0010 0x0055 = some (0x0009, 0x0055, 3) := by decide
theorem test_mod_b : stepBA 0x0028 0x0007 0x0000 0x0055 = some (0x0000, 0x0055, 3) := by decide
theorem test_mdi_a : stepBA 0x0029 0xFFF9 0x0010 0x0055 = some (0xFFF9, 0x0055, 3) := by decide
theorem test_mdi_b : stepBA 0x0029 0x0007 0xFFFD 0x0055 = some (0x0001, 0x0055, 3) := by decide
theorem test_adx_a : stepBA 0x003A 0xFFFE 0x0001 0x0001 = some (0x0000, 0x0001, 3) := by decide
theorem test_adx_b : stepBA 0x003A 0x0000 0x0000 0xFFFF = some (0xFFFF, 0x0000, 3) := by decide
theorem test_sbx_a : stepBA 0x003B 0x0005 0x0003 0xFFFF = some (0x0001, 0x0001, 3) := by decide
theorem test_sbx_b : stepBA 0x003B 0x0000 0x0001 0x0000 = some (0xFFFF, 0xFFFF, 3) := by decide
theorem test_and_a : stepBA 0x002A 0xF0F0 0xFF00 0x0055 = some (0xF000, 0x0055, 1) := by decide
theorem test_bor_a : stepBA 0x002B 0xF0F0 0x0F00 0x0055 = some (0xFFF0, 0x0055, 1) := by decide
theorem test_xor_a : stepBA 0x002C 0xF0F0 0xFF00 0x0055 = some (0x0FF0, 0x0055, 1) := by decide
theorem test_shr_a : stepBA 0x002D 0xFFFF 0x0004 0x0000 = some (0x0FFF, 0xF000, 1) := by decide
theorem test_shr_b : stepBA 0x002D 0xFFFF 0x0011 0x0000 = some (0x0000, 0x7FFF, 1) := by decide
theorem test_asr_a : stepBA 0x002E 0x8001 0x0001 0x0000 = some (0xC000, 0x8000, 1) := by decide
theorem test_asr_b : stepBA 0x002E 0x8001 0x0011 0x0000 = some (0xFFFF, 0x4000, 1) := by decide
theorem test_shl_a : stepBA 0x002F 0xFFFF 0x0004 0x0000 = some (0xFFF0, 0x000F, 1) := by decide
theorem test_shl_b : stepBA 0x002F 0x0001 0x001F 0x0000 = some (0x0000, 0x8000, 1) := by decide

theorem test_ifb_a : stepIf 0x0030 0x0007 0x0007 = some (false, 1, 2) := by decide
theorem test_ifb_b : stepIf 0x0030 0x0002 0x0005 = some (true, 1, 2) := by decide
theorem test_ifc_a : stepIf 0x0031 0x8000 0x0001 = some (false, 1, 2) := by decide
theorem test_ifc_b : stepIf 0x0031 0x0007 0x0007 = some (true, 1, 2) := by decide
theorem test_ife_a : stepIf 0x0032 0x0007 0x0007 = some (false, 1, 2) := by decide
theorem test_ife_b : stepIf 0x0032 0x0005 0x0004 = some (true, 1, 2) := by decide
theorem test_ifn_a : stepIf 0x0033 0x0005 0x0004 = some (false, 1, 2) := by decide
theorem test_ifn_b : stepIf 0x0033 0x0007 0x0007 = some (true, 1, 2) := by decide
theorem test_ifg_a : stepIf 0x0034 0x8000 0x0001 = some (false, 1, 2) := by decide
theorem test_ifg_b : stepIf 0x0034 0x0001 0x8000 = some (true, 1, 2) := by decide
theorem test_ifa_a : stepIf 0x0035 0x0001 0x8000 = some (false, 1, 2) := by decide
theorem test_ifa_b : stepIf 0x0035 0x8000 0x0001 = some (true, 1, 2) := by decide
theorem test_ifl_a : stepIf 0x0036 0x0001 0x8000 = some (false, 1, 2) := by decide
theorem test_ifl_b : stepIf 0x0036 0x8000 0x0001 = some (true, 1, 2) := by decide
theorem test_ifu_a : stepIf 0x0037 0x8000 0x0001 = some (false, 1, 2) := by decide
theorem test_ifu_b : stepIf 0x0037 0x0001 0x8000 = some (true, 1, 2) := by decide

/-- `SET [X + 1], [Y + 2]`. -/
theorem test_set_a :
    (after { loaded [0x5261, 0x0002, 0x0001] with regX := 0x3000, regY := 0x4000, mem := (loaded [0x5261, 0x0002, 0x0001]).mem.write 0x4002 0xCAFE }).map
        (fun t => (t.readMem 0x3001, t.pc, t.cycles)) = some (0xCAFE, 3, 3) := by decide

/-- `SET PUSH, SP` from SP = 8000. -/
theorem test_set_b :
    (after { loaded [0x6F01] with sp := 0x8000 }).map (fun t => (t.readMem 0x7FFF, t.sp, t.cycles)) =
      some (0x7FFF, 0x7FFF, 1) := by decide

/-- `STI I, 5`. -/
theorem test_sti_a :
    (after { loaded [0x98DE] with regI := 0x0010, regJ := 0x0020 }).map (fun t => (t.regI, t.regJ, t.cycles)) =
      some (0x0006, 0x0021, 2) := by decide

/-- `STI [J], [I]`. -/
theorem test_sti_b :
    (after { loaded [0x39FE] with regI := 0x0100, regJ := 0x0200, mem := (loaded [0x39FE]).mem.write 0x0100 0xAAAA }).map
      (fun t => (t.readMem 0x0200, t.regI, t.regJ)) = some (0xAAAA, 0x0101, 0x0201) := by decide

/-- `STD A, I`. -/
theorem test_std_a :
    (after { loaded [0x181F] with regA := 0x0009 }).map (fun t => (t.regA, t.regI, t.regJ, t.cycles)) =
      some (0x0000, 0xFFFF, 0xFFFF, 2) := by decide

/-- `STD J, I`. -/
theorem test_std_b :
    (after { loaded [0x18FF] with regI := 0x0010, regJ := 0x0020 }).map (fun t => (t.regI, t.regJ)) =
      some (0x000F, 0x000F) := by decide

/-- `JSR 0x0100`. -/
theorem test_jsr_a :
    (after (loaded [0x7C20, 0x0100])).map (fun t => (t.pc, t.sp, t.readMem 0xFFFF, t.cycles)) =
      some (0x0100, 0xFFFF, 0x0002, 4) := by decide

/-- `JSR POP`: the target is popped before the return address is pushed. -/
theorem test_jsr_b :
    (after { loaded [0x6020] with sp := 0x8000, mem := (loaded [0x6020]).mem.write 0x8000 0x0300 }).map
      (fun t => (t.pc, t.sp, t.readMem 0x8000, t.cycles)) = some (0x0300, 0x8000, 0x0001, 3) := by decide

/-- A halt word: `Halt`, state unchanged, also with `skip` set (2.7, 2.5). -/
theorem test_halt :
    specOutcome (loaded [0x0400]) = .halt ∧ after (loaded [0xFC00]) = some (loaded [0xFC00]) ∧
    specOutcome { loaded [0x0000] with skip := true } = .halt := by decide

/-- `JSR 0x0100` skipped; an illegal word in the shadow of a skip faults (2.5). -/
theorem test_skip :
    after { loaded [0x7C20, 0x0100] with skip := true } =
      some { loaded [0x7C20, 0x0100] with pc := 2, cycles := 1 } ∧
    specOutcome { loaded [0x8812, 0x0018] with pc := 1, skip := true } = .fault 1 0x0018 := by decide

/-- `SET 0x1111, A` with LIT_WRITE at each of its values. -/
theorem test_literal_write :
    (after { loaded [0x03E1, 0x1111] with regA := 0x2222 }).map (fun t => (t.readMem 1, t.pc, t.cycles)) =
      some (0x1111, 2, 2) ∧
    (after { loaded [0x03E1, 0x1111] with regA := 0x2222, litWrite := .writeThrough }).map
      (fun t => (t.readMem 1, t.pc, t.cycles)) = some (0x2222, 2, 2) := by decide

/-- PC wraps: MEM[FFFE..0000] = 5261 0002 0001. -/
theorem test_pc_wraps :
    (after { State.reset.writeWords 0xFFFE [0x5261, 0x0002, 0x0001] with pc := 0xFFFE, regX := 0x3000, regY := 0x4000 }).map
      (fun t => (t.pc, t.cycles)) = some (0x0001, 3) := by decide

/-- `ADD EX, 1`: the carry overwrites the sum. -/
theorem test_add_to_ex : (after { loaded [0x8BA2] with ex := 0xFFFF }).map (fun t => t.ex) = some 0x0001 := by decide

/-- `withFetchWord` makes the next step run the instruction. -/
theorem test_withFetchWord :
    (after (State.reset.withFetchWord 32 0x00287C01)).map (fun t => (t.regA, t.pc, t.cycles)) = some (40, 2, 2) := by decide

/-- Parameters other than the defaults (R7): another COST, another NUM, a table without JSR, a table where basic code 0x18
is a conditional like IFE. -/
theorem test_stepWith_parameters :
    (match stepWith { defaultParams with cost := fun _ => 7 } (loaded [0xD401]) with
      | .next t => some (t.regA, t.cycles) | .fault _ => none | .refused _ => none) = some (20, 7) ∧
    (match stepWith { defaultParams with num := { num with add := num.sub } } { loaded [0x0022] with regB := 5, regA := 3 } with
      | .next t => some t.regB | .fault _ => none | .refused _ => none) = some 2 ∧
    (match stepWith { defaultParams with ist := { defaultIst with special := fun _ => none } } (loaded [0x0020]) with
      | .next _ => none | .fault (.unknownOpcode p w) => some (p, w) | .refused _ => none) = some (0, 0x0020) ∧
    (match stepWith { defaultParams with ist := { defaultIst with basic := fun _ => some (basicEntry .ife) } }
        { loaded [0x0038] with regB := 1 } with
      | .next t => some (t.skip, t.pc) | .fault _ => none | .refused _ => none) = some (true, 1) := by decide

/-! ### The assembler on the spec's samples (S2, S4, S5, S10) -/

theorem test_assemble_set : assembleImage "SET A, 20".toList = .ok [0xD4, 0x01] := by decide

theorem test_assemble_forward_label :
    assemble "SET PC, loop\nSET A, 1\n:loop SET B, 2".toList = .ok [0x7F81, 0x0003, 0x8801, 0x8C21] := by decide

theorem test_assemble_brackets :
    assemble "SET [X + 1], [Y + 2] ; two words".toList = .ok [0x5261, 0x0002, 0x0001] ∧
    assemble "JSR 5".toList = .ok [0x9820] ∧ assemble "DAT 0xBEEF".toList = .ok [0xBEEF] := by decide

theorem test_assemble_errors :
    assemble "SET PC, nowhere".toList = .error (.undefinedLabel "NOWHERE".toList) ∧
    assemble "SET [PC], 1".toList = .error .disallowedRegister ∧ assemble "SET A".toList = .error .wrongArity ∧
    assemble "INT 1".toList = .error .unknownMnemonic := by decide

/-! ### Witnesses: concrete states and operands that meet the hypotheses of the statements -/

/-- DecodeEncodeRoundTrip: well-formed, with two trailing words and words after them. -/
theorem witness_roundTrip :
    (Instr.set (.regIndNext .X 1) (.pick 2)).wellFormed = true ∧ (Instr.halt 0x3F).wellFormed = true ∧
    decode (encode (.set (.regIndNext .X 1) (.pick 2)) ++ [0x1234]) = .ok (.set (.regIndNext .X 1) (.pick 2), [0x1234]) := by
  decide

/-- EncodeInvertsDecode: words that decode, all of them used or some left over. -/
theorem witness_encodeInvertsDecode :
    decode [0x7C01, 0x0028, 0xFFFF] = .ok (.set (.reg .A) (.litNext 0x0028), [0xFFFF]) ∧
    decode [0xFC00] = .ok (.halt 0x3F, []) := by decide

/-- InlineLiteralValue: both ends of the range, and a state with LIT_WRITE = discard. -/
theorem witness_inlineLiteral :
    ((literalOperand .A (-1)).code = 0x20 ∧ (literalOperand .A 30).code = 0x3F) ∧ State.reset.litWrite = .discard := by decide

/-- TrailingWordOrder: `SET [X + 1], [Y + 2]` at PC, both operands with a trailing word; and at the end of memory. -/
theorem witness_trailingWordOrder :
    decode (loaded [0x5261, 2, 1]).fetch = .ok (Instr.ofBasic .set (.regIndNext .X 1) (.regIndNext .Y 2), []) ∧
    (Operand.regIndNext .Y 2).trailing = [2] ∧ (Operand.regIndNext .X 1).trailing = [1] ∧
    decode { State.reset.writeWords 0xFFFF [0x5261, 2, 1] with pc := 0xFFFF }.fetch =
      .ok (Instr.ofBasic .set (.regIndNext .X 1) (.regIndNext .Y 2), []) := by decide

/-- OperandHandles: operands that meet the two inner hypotheses. -/
theorem witness_operandHandles :
    Operand.peek ≠ .pushPop ∧ consumesNext Operand.peek.code = false ∧ consumesNext (Operand.inlineLit 0).code = false := by
  decide

/-- StepRunsDecodedInstruction: not skipping, a halt word while skipping, and another instruction while skipping. -/
theorem witness_stepRuns :
    (decode (loaded [0xD401]).fetch = .ok (.set (.reg .A) (.inlineLit 21), [0, 0]) ∧ (loaded [0xD401]).skip = false) ∧
    (decode (loaded [0x0400]).fetch = .ok (.halt 1, [0, 0]) ∧ (Instr.halt 1).isHalt = true) ∧
    (decode { loaded [0x8812] with skip := true }.fetch = .ok (.ife (.reg .A) (.inlineLit 2), [0, 0]) ∧
      { loaded [0x8812] with skip := true }.skip = true ∧ (Instr.ife (.reg .A) (.inlineLit 2)).isHalt = false) := by decide

/-- OutcomeDecidedByTheWord and IllegalWordsAreExactlyTheListed: words at the edges of each class, and words of none. -/
theorem witness_words :
    IsHaltWord 0x0000 ∧ IsHaltWord 0xFC00 ∧ IsIllegalWord 0x0018 ∧ IsIllegalWord 0xFFFD ∧ IsIllegalWord 0x0040 ∧
    IsIllegalWord 0x03E0 ∧ (¬ IsHaltWord 0x0020 ∧ ¬ IsIllegalWord 0x0020) ∧ (¬ IsHaltWord 0xFFFF ∧ ¬ IsIllegalWord 0xFFFF) ∧
    (¬ IsHaltWord 0x001B ∧ ¬ IsIllegalWord 0x001B) := by
  unfold IsHaltWord IsIllegalWord; decide

/-- CycleAccounting: a halt, a skipped and an executed instruction, and a fault. -/
theorem witness_cycleAccounting :
    (decode (loaded [0x0000]).fetch = .ok (.halt 0, [0, 0]) ∧ after (loaded [0x0000]) = some (loaded [0x0000])) ∧
    (decode { loaded [0x7C20, 1] with skip := true }.fetch = .ok (.jsr (.litNext 1), [0]) ∧
      after { loaded [0x7C20, 1] with skip := true } = some { loaded [0x7C20, 1] with pc := 2, cycles := 1 }) ∧
    (decode (loaded [0xD401]).fetch = .ok (.set (.reg .A) (.inlineLit 21), [0, 0]) ∧
      after (loaded [0xD401]) = some { loaded [0xD401] with regA := 20, pc := 1, cycles := 1 }) ∧
    runFor 1 (loaded [0x0018]) = .faulted 0 0x0018 (loaded [0x0018]) := by decide

/-- SkipPassesOverAChain: `IFE A, 1`, `IFN A, 0x1234` and then `SET PUSH, 0xBEEF`. -/
theorem witness_skipChain :
    { loaded [0x8812, 0x7C13, 0x1234, 0x7F01, 0xBEEF] with skip := true }.skip = true ∧
    (∀ i ∈ ([.ife (.reg .A) (.inlineLit 2), .ifn (.reg .A) (.litNext 0x1234)] : List Instr),
      i.wellFormed = true ∧ i.conditional = true) ∧
    (Instr.set .pushPop (.litNext 0xBEEF)).wellFormed = true ∧ (Instr.set .pushPop (.litNext 0xBEEF)).conditional = false ∧
    (Instr.set .pushPop (.litNext 0xBEEF)).isHalt = false ∧
    HoldsWords { loaded [0x8812, 0x7C13, 0x1234, 0x7F01, 0xBEEF] with skip := true } 0
      (([.ife (.reg .A) (.inlineLit 2), .ifn (.reg .A) (.litNext 0x1234), .set .pushPop (.litNext 0xBEEF)] : List Instr).flatMap
        encode) := by
  refine ⟨rfl, by decide, by decide, by decide, by decide, ?_⟩
  unfold HoldsWords
  decide

/-- StepKeepsCanonicalMemory and HostSessionKeepsCanonicalMemory: a state in canonical form whose step stores a zero. -/
theorem witness_canonical :
    (loaded [0x07C1, 0x0000]).wf = true ∧ (after (loaded [0x07C1, 0x0000])).map State.wf = some true ∧
    (after (loaded [0x07C1, 0x0000])).map (fun t => t.mem) = some [] := by decide

/-- CyclesDoNotInfluenceAnything and SnapshotOnlyForLoadAndReset: a state that steps, one that faults, an image the loader
takes. -/
theorem witness_noninterference :
    (after (loaded [0xD401])).isSome = true ∧ step (loaded [0x0018]) = .fault (.unknownOpcode 0 0x0018) ∧
    readImage [0xD4, 0x01] = .ok [0xD401] ∧ readImage [] = .ok [] :=
  ⟨by decide, rfl, by decide, by decide⟩

/-- CanonicalMemoryIsDeterminedByItsWords: a memory in canonical form, with both end addresses listed. -/
theorem witness_canonicalMemory :
    Memory.wf [(0, 1), (0xFFFF, 2)] = true ∧ Memory.wf [(0, 0)] = false ∧ Memory.wf [(0x10000, 1)] = false ∧
    ∀ a, Memory.read [(0, 1), (0xFFFF, 2)] a = Memory.read [(0, 1), (0xFFFF, 2)] a :=
  ⟨by decide, by decide, by decide, fun _ => rfl⟩

/-- RunEndsAtFirstHaltOrFault: a state of each outcome; a run that halts after one step and one that faults at once. -/
theorem witness_runEnds :
    specOutcome (loaded [0x0400]) = .halt ∧ specOutcome (loaded [0x0040]) = .fault 0 0x0040 ∧
    specOutcome (loaded [0xD401]) = .next { loaded [0xD401] with regA := 20, pc := 1, cycles := 1 } ∧
    runFor 2 (loaded [0xD401]) = .halted { loaded [0xD401] with regA := 20, pc := 1, cycles := 1 } ∧
    runFor 1 (loaded [0x0040]) = .faulted 0 0x0040 (loaded [0x0040]) := by decide

/-- PushThenPopRestores: S7, `SET PUSH, 5` and `SET A, POP`. -/
theorem witness_pushThenPop :
    Operand.inlineLit 6 ≠ .pushPop ∧
    ((after (loaded [0x9B01, 0x6001])).bind after).map (fun t => (t.regA, t.sp, t.pc, t.readMem 0xFFFF, t.cycles)) =
      some (5, 0, 2, 5, 2) := by decide

/-- DivisionLaws: a divisor that is not zero, zero, and operands outside the one exclusion, at its edges. -/
theorem witness_division :
    (0x0002 : Word) ≠ 0 ∧ (0x0000 : Word) = 0 ∧
    ¬ ((0x8000 : Word) = 0x8000 ∧ (0x0001 : Word) = 0xFFFF) ∧ ¬ ((0x7FFF : Word) = 0x8000 ∧ (0xFFFF : Word) = 0xFFFF) := by
  decide

/-- LoadReplacesMemoryAndSnapshot: the empty and the longest image, an odd one and one too long. -/
theorem witness_load :
    ([] : List Word).length ≤ 65536 ∧ (List.replicate 65536 (1 : Word)).length ≤ 65536 ∧
    ([0xD4] : List Byte).length % 2 = 1 ∧ 131072 < (List.replicate 131074 (1 : Byte)).length ∧
    State.reset.loadImage [0xD4] = State.reset := by
  refine ⟨by decide, ?_, by decide, ?_, by decide⟩
  · rw [List.length_replicate]
  · rw [List.length_replicate]; decide

/-- LaunchForgetsThePast: two different states with one LIT_WRITE and an image short enough (S8, second instance). -/
theorem witness_launch :
    State.reset.litWrite = (loaded [1, 2, 3, 4]).litWrite ∧ State.reset ≠ loaded [1, 2, 3, 4] ∧
    ([0x9B01, 0x6001] : List Word).length ≤ 65536 ∧
    ((loaded [1, 2, 3, 4]).launch (bytesOfWords [0x9B01, 0x6001])).mem = [(0, 0x9B01), (1, 0x6001)] := by decide

/-- LiteralInlining: both ends of the inlined range and of the others, and an operand that is inlined. -/
theorem witness_literalInlining :
    (SrcOperand.literal (-1)).lower (fun _ => none) .A = .ok (.inlineLit 0) ∧
    (SrcOperand.literal 30).lower (fun _ => none) .A = .ok (.inlineLit 31) ∧
    (SrcOperand.literal 31).lower (fun _ => none) .A = .ok (.litNext 31) ∧
    (SrcOperand.literal 65534).lower (fun _ => none) .A = .ok (.litNext 0xFFFE) ∧
    (SrcOperand.literal 65535).lower (fun _ => none) .A = .ok (.inlineLit 0) ∧
    (SrcOperand.literal (-2)).lower (fun _ => none) .A = .ok (.litNext 0xFFFE) ∧
    (SrcOperand.literal (-32768)).lower (fun _ => none) .A = .ok (.litNext 0x8000) := by decide

end Sys2Proof.Tests
end

section
/-! SUPPORT. The canonical form of memory as data: what it says of a list's first entry, and that two canonical memories
that read alike are one list (10_state.md R20, R28; log entry 1). -/

namespace Sys2Proof.Machine

/-- The canonical form from `lo` on, read off the first entry. -/
@[simp] theorem Memory.wfFrom_cons (lo k : Nat) (v : Word) (rest : Memory) :
    Memory.wfFrom lo ((k, v) :: rest) = true ↔ lo ≤ k ∧ v ≠ Memory.unlisted ∧ Memory.wfFrom (k + 1) rest = true := by
  simp [Memory.wfFrom, and_assoc]

/-- Below its first possible address a canonical memory lists nothing. -/
theorem Memory.read_below {m : Memory} {lo a : Nat} (w : Memory.wfFrom lo m = true) (h : a < lo) :
    m.read a = Memory.unlisted := by
  induction m generalizing lo with
  | nil => rfl
  | cons p rest ih =>
    obtain ⟨k, v⟩ := p
    obtain ⟨hk, -, hrest⟩ := (Memory.wfFrom_cons lo k v rest).mp w
    rw [Memory.read, if_neg (by omega)]
    exact ih hrest (by omega)

@[simp] theorem Memory.read_head (k : Nat) (v : Word) (rest : Memory) : Memory.read ((k, v) :: rest) k = v := by
  simp [Memory.read]

/-- Two canonical memories that read alike do not begin at different addresses: the lower of the two first entries would
be a word the other memory does not list. -/
theorem Memory.head_not_below {k k' lo : Nat} {v v' : Word} {rest rest' : Memory}
    (w : Memory.wfFrom lo ((k, v) :: rest) = true) (w' : Memory.wfFrom lo ((k', v') :: rest') = true)
    (h : Memory.read ((k, v) :: rest) k = Memory.read ((k', v') :: rest') k) : k' ≤ k := by
  obtain ⟨-, hv, -⟩ := (Memory.wfFrom_cons lo k v rest).mp w
  obtain ⟨-, hv', hrest'⟩ := (Memory.wfFrom_cons lo k' v' rest').mp w'
  by_contra hlt
  have hunlisted : Memory.read ((k', v') :: rest') k = Memory.unlisted :=
    Memory.read_below ((Memory.wfFrom_cons k' k' v' rest').mpr ⟨le_rfl, hv', hrest'⟩) (by omega)
  rw [Memory.read_head, hunlisted] at h
  exact hv h

/-- A canonical memory that lists an entry does not read like the empty one. -/
theorem Memory.read_cons_ne_nil {lo k : Nat} {v : Word} {rest : Memory}
    (w : Memory.wfFrom lo ((k, v) :: rest) = true) : Memory.read ((k, v) :: rest) k ≠ Memory.read [] k := by
  rw [Memory.read_head]
  exact ((Memory.wfFrom_cons lo k v rest).mp w).2.1

/-- Canonical memories with the same words are the same list, by induction on the one, entry against entry. -/
theorem Memory.eq_of_read_eq {m m' : Memory} {lo : Nat} (w : Memory.wfFrom lo m = true)
    (w' : Memory.wfFrom lo m' = true) (h : ∀ a, m.read a = m'.read a) : m = m' := by
  induction m generalizing m' lo with
  | nil =>
    cases m' with
    | nil => rfl
    | cons p' rest' => exact absurd (h p'.1).symm (Memory.read_cons_ne_nil w')
  | cons p rest ih =>
    cases m' with
    | nil => exact absurd (h p.1) (Memory.read_cons_ne_nil w)
    | cons p' rest' =>
      obtain ⟨k, v⟩ := p
      obtain ⟨k', v'⟩ := p'
      obtain rfl : k = k' :=
        le_antisymm (Memory.head_not_below w' w (h k').symm) (Memory.head_not_below w w' (h k))
      obtain rfl : v = v' := by simpa using h k
      obtain ⟨-, -, wrest⟩ := (Memory.wfFrom_cons lo k v rest).mp w
      obtain ⟨-, -, wrest'⟩ := (Memory.wfFrom_cons lo k v rest').mp w'
      have hrest : ∀ a, Memory.read rest a = Memory.read rest' a := by
        intro a
        by_cases ha : a ≤ k
        · rw [Memory.read_below wrest (by omega), Memory.read_below wrest' (by omega)]
        · have hk : k ≠ a := by omega
          simpa [Memory.read, hk] using h a
      rw [ih wrest wrest' hrest]

end Sys2Proof.Machine
end

section
/-! SUPPORT. The two fields no step reads, `cycles` and `img`: every operation of a step commutes with replacing them
(10_state.md R30, R31; 70_reset_and_hazards.md R241). -/

namespace Sys2Proof.Machine

/-- The state with another cycle counter and another snapshot: what a step must not look at (R31, R241). -/
def State.withUnread (s : State) (c : Nat) (m : Memory) : State := { s with cycles := c, img := m }

@[simp] theorem State.withUnread_self (s : State) : s.withUnread s.cycles s.img = s := rfl

/-! ### What is read of a state does not see the two fields -/

section Observers
variable (s : State) (c : Nat) (m : Memory)

@[simp] theorem State.withUnread_readGen (g : GReg) : (s.withUnread c m).readGen g = s.readGen g := by cases g <;> rfl
@[simp] theorem State.withUnread_readReg (q : Reg) : (s.withUnread c m).readReg q = s.readReg q := by
  cases q with
  | gen g => exact State.withUnread_readGen s c m g
  | sp => rfl
  | pc => rfl
  | ex => rfl
@[simp] theorem State.withUnread_readMem (x : Word) : (s.withUnread c m).readMem x = s.readMem x := rfl
@[simp] theorem State.withUnread_pc : (s.withUnread c m).pc = s.pc := rfl
@[simp] theorem State.withUnread_sp : (s.withUnread c m).sp = s.sp := rfl
@[simp] theorem State.withUnread_ex : (s.withUnread c m).ex = s.ex := rfl
@[simp] theorem State.withUnread_skip : (s.withUnread c m).skip = s.skip := rfl
@[simp] theorem State.withUnread_cycles : (s.withUnread c m).cycles = c := rfl
@[simp] theorem State.withUnread_img : (s.withUnread c m).img = m := rfl
@[simp] theorem State.withUnread_litWrite : (s.withUnread c m).litWrite = s.litWrite := rfl
@[simp] theorem State.withUnread_fetch : (s.withUnread c m).fetch = s.fetch := rfl

@[simp] theorem resolve_withUnread (sl : Slot) (n : Nat) (o : Operand) :
    resolve sl n o (s.withUnread c m) = resolve sl n o s := by
  cases o <;> simp [resolve]

@[simp] theorem handleA_withUnread (a : Operand) : handleA a (s.withUnread c m) = handleA a s :=
  resolve_withUnread s c m .A 0 a

@[simp] theorem handleB_withUnread (b a : Operand) : handleB b a (s.withUnread c m) = handleB b a s :=
  resolve_withUnread s c m .B a.trailingCount b

@[simp] theorem rd_withUnread (h : Handle) : rd h (s.withUnread c m) = rd h s := by
  cases h with
  | reg r => exact State.withUnread_readReg s c m r
  | ram a => rfl
  | lit v => rfl

/-! ### Every update commutes with replacing the two fields; counting cycles adds to the new counter -/

@[simp] theorem State.withUnread_writeReg (r : Reg) (v : Word) :
    (s.withUnread c m).writeReg r v = (s.writeReg r v).withUnread c m := by
  cases r with
  | gen g => cases g <;> rfl
  | sp => rfl
  | pc => rfl
  | ex => rfl

@[simp] theorem wr_withUnread (h : Handle) (v : Word) :
    wr h v (s.withUnread c m) = (wr h v s).withUnread c m := by
  cases h with
  | reg r => exact State.withUnread_writeReg s c m r v
  | ram a => rfl
  | lit x => rfl

@[simp] theorem State.withUnread_writeEx (e : Option Word) :
    (s.withUnread c m).writeEx e = (s.writeEx e).withUnread c m := by cases e <;> rfl

@[simp] theorem State.withUnread_applyEffects (ds : List Word) :
    (s.withUnread c m).applyEffects ds = (s.applyEffects ds).withUnread c m := by
  induction ds generalizing s with
  | nil => rfl
  | cons d ds ih => exact ih { s with sp := s.sp + d }

@[simp] theorem State.withUnread_advance (n : Nat) :
    (s.withUnread c m).advance n = (s.advance n).withUnread c m := rfl
@[simp] theorem State.withUnread_addCycles (n : Nat) :
    (s.withUnread c m).addCycles n = (s.addCycles n).withUnread (c + n) m := rfl
@[simp] theorem State.withUnread_charge (k : Mnemonic) :
    (s.withUnread c m).charge k = (s.charge k).withUnread (c + cost k) m := rfl
@[simp] theorem State.withUnread_setSkip : (s.withUnread c m).setSkip = s.setSkip.withUnread c m := rfl
@[simp] theorem State.withUnread_bumpIJ (d : Word) :
    (s.withUnread c m).bumpIJ d = (s.bumpIJ d).withUnread c m := rfl

/-! ### The shared operations and the step -/

@[simp] theorem prepareBasic_withUnread (b a : Operand) :
    prepareBasic b a (s.withUnread c m) =
      (prepareBasic b a s).withUnread (c + (a.trailingCount + b.trailingCount)) m := by
  simp [prepareBasic]

@[simp] theorem prepareSpecial_withUnread (a : Operand) :
    prepareSpecial a (s.withUnread c m) = (prepareSpecial a s).withUnread (c + a.trailingCount) m := by
  simp [prepareSpecial]

theorem copy_withUnread (b a : Operand) :
    copy b a (s.withUnread c m) = (copy b a s).withUnread (c + (a.trailingCount + b.trailingCount)) m := by
  simp [copy, copyOn]

theorem operate_withUnread (f : NumFn) (b a : Operand) :
    operate f b a (s.withUnread c m) = (operate f b a s).withUnread (c + (a.trailingCount + b.trailingCount)) m := by
  simp [operate, operateOn]

theorem testAndSkip_withUnread (t : Word → Word → Bool) (b a : Operand) :
    testAndSkip t b a (s.withUnread c m) =
      (testAndSkip t b a s).withUnread (c + (a.trailingCount + b.trailingCount)) m := by
  simp only [testAndSkip, testOn, handleA_withUnread, handleB_withUnread, prepareBasic_withUnread, rd_withUnread]
  split
  · rfl
  · rfl

theorem call_withUnread (a : Operand) :
    call a (s.withUnread c m) = (call a s).withUnread (c + a.trailingCount) m := by
  simp only [call, callOn, handleA_withUnread, prepareSpecial_withUnread, rd_withUnread]
  rfl

theorem Family.run_withUnread (k : Family) (b a : Operand) :
    k.run b a (s.withUnread c m) = (k.run b a s).withUnread (c + (a.trailingCount + b.trailingCount)) m := by
  cases k with
  | copy => exact copy_withUnread s c m b a
  | copyAndMove d => rw [Family.run, copy_withUnread, State.withUnread_bumpIJ, Family.run]
  | operate f => exact operate_withUnread s c m f b a
  | test t => exact testAndSkip_withUnread s c m t b a

theorem skipOver_withUnread (i : Instr) :
    skipOver i (s.withUnread c m) = (skipOver i s).withUnread (c + 1) m := rfl

end Observers

/-- An instruction answers the same with other unread fields, and counts the same cycles. -/
theorem exec_withUnread (i : Instr) (s : State) :
    ∃ t n, exec i s = .next t ∧ ∀ c m, exec i (s.withUnread c m) = .next (t.withUnread (c + n) m) := by
  rcases exec_cases i s with ⟨op, b, a, rfl, h⟩ | ⟨a, rfl, h⟩ | ⟨f, rfl, h⟩
  · refine ⟨_, a.trailingCount + b.trailingCount + cost (.basic op), h, fun c m => ?_⟩
    rw [exec_ofBasic, Family.run_withUnread, State.withUnread_charge, Nat.add_assoc]
  · refine ⟨_, a.trailingCount + cost .jsr, h, fun c m => ?_⟩
    rw [exec_jsr, call_withUnread, State.withUnread_charge, Nat.add_assoc]
  · exact ⟨s, 0, h, fun c m => rfl⟩

/-! ### The step by what is fetched, one equation for each case (R111) -/

theorem step_of_not_decoded {s : State} {e : DecodeError} (h : decode s.fetch = .error e) :
    step s = .fault (.unknownOpcode s.pc (s.readMem s.pc)) := by
  simp only [step, stepOnce, h]
  rfl

theorem step_of_skipped {s : State} {i : Instr} {rest : List Word} (h : decode s.fetch = .ok (i, rest))
    (hs : s.skip = true) (hi : i.isHalt = false) : step s = .next (skipOver i s) := by
  simp [step, stepOnce, h, hs, hi]

theorem step_of_executed {s : State} {i : Instr} {rest : List Word} (h : decode s.fetch = .ok (i, rest))
    (hr : s.skip = false ∨ i.isHalt = true) : step s = exec i s := by
  rcases hr with hs | hi
  · simp [step, stepOnce, h, hs]
  · simp [step, stepOnce, h, hi]

/-- A step that answers a next state does so with any counter and any snapshot, to which it does the same. -/
theorem step_commutes_withUnread {s t : State} (h : step s = .next t) :
    ∃ n, ∀ c m, step (s.withUnread c m) = .next (t.withUnread (c + n) m) := by
  rcases step_cases s with ⟨e, -, hf⟩ | ⟨i, rest, hd, hs, hi, hn⟩ | ⟨i, rest, hd, hr, hx⟩
  · rw [hf] at h
    cases h
  · obtain rfl : skipOver i s = t := Host.Outcome.next.inj (hn.symm.trans h)
    exact ⟨1, fun c m => step_of_skipped hd hs hi⟩
  · obtain ⟨u, n, hu, hw⟩ := exec_withUnread i s
    obtain rfl : u = t := Host.Outcome.next.inj (hu.symm.trans (hx.symm.trans h))
    exact ⟨n, fun c m => (step_of_executed (s := s.withUnread c m) hd hr).trans (hw c m)⟩

/-- A step that faults faults the same with other unread fields. -/
theorem step_fault_withUnread {s : State} {f : Fault} (h : step s = .fault f) (c : Nat) (m : Memory) :
    step (s.withUnread c m) = .fault f := by
  rcases step_cases s with ⟨e, hd, hf⟩ | ⟨i, rest, -, -, -, hn⟩ | ⟨i, rest, -, -, hx⟩
  · exact (step_of_not_decoded (s := s.withUnread c m) hd).trans (hf.symm.trans h)
  · rw [hn] at h
    cases h
  · obtain ⟨u, n, hu, -⟩ := exec_withUnread i s
    rw [hx, hu] at h
    cases h

/-- What a step does to the fields it does not read: it adds some cycles to whatever the counter was and leaves whatever
the snapshot was. Its own two fields, put into `step_commutes_withUnread`, show that this is what it does to them. -/
theorem step_withUnread {s t : State} (h : step s = .next t) :
    ∃ n, t.cycles = s.cycles + n ∧ t.img = s.img ∧
      ∀ c m, step (s.withUnread c m) = .next (t.withUnread (c + n) m) := by
  obtain ⟨n, hn⟩ := step_commutes_withUnread h
  have hself := hn s.cycles s.img
  rw [State.withUnread_self, h] at hself
  have ht : t = t.withUnread (s.cycles + n) s.img := Host.Outcome.next.inj hself
  have hcycles : t.cycles = (t.withUnread (s.cycles + n) s.img).cycles := congrArg State.cycles ht
  have himg : t.img = (t.withUnread (s.cycles + n) s.img).img := congrArg State.img ht
  exact ⟨n, hcycles, himg, hn⟩

end Sys2Proof.Machine
end

section
/-! SUPPORT. The canonical form of both memories through an instruction and through a step (log entry 1). -/

namespace Sys2Proof.Machine

theorem State.wf_iff (s : State) : s.wf = true ↔ s.mem.wf = true ∧ s.img.wf = true := by
  simp [State.wf]

/-- Every instruction keeps the canonical form of live memory. -/
theorem exec_mem_wf {i : Instr} {s t : State} (h : exec i s = .next t) (w : s.mem.wf = true) : t.mem.wf = true := by
  rcases exec_cases i s with ⟨op, b, a, -, hn⟩ | ⟨a, -, hn⟩ | ⟨f, -, hn⟩ <;>
    obtain rfl := Host.Outcome.next.inj (hn.symm.trans h)
  · obtain ⟨-, -, -, hwf⟩ := Family.run_spec (familyOf op) b a s
    exact hwf w
  · exact call_mem_wf a s w
  · exact w

/-- Every step keeps the canonical form of live memory: stepping over an instruction does not write it. -/
theorem step_mem_wf {s t : State} (h : step s = .next t) (w : s.mem.wf = true) : t.mem.wf = true := by
  rcases step_cases s with ⟨e, -, hf⟩ | ⟨i, rest, -, -, -, hn⟩ | ⟨i, rest, -, -, hx⟩
  · rw [hf] at h
    cases h
  · obtain rfl := Host.Outcome.next.inj (hn.symm.trans h)
    exact w
  · exact exec_mem_wf (hx.symm.trans h) w

end Sys2Proof.Machine
end

section
/-! SUPPORT. The operand-code table (R74): a row is settled by its code and its trailing word; sums of words as wrapped
integer sums (R8). -/

namespace Sys2Proof
open Sys2Proof.Machine

/-- `wrap` undoes `unsigned` (R8). -/
@[simp] theorem wrap_unsigned (v : Word) : wrap (unsigned v) = v := by
  simp [wrap, unsigned]

/-- A sum of words is the wrapped integer sum (R8, R20). -/
theorem wrap_unsigned_add (v : Word) (n : Int) : wrap (unsigned v + n) = v + wrap n := by
  rw [wrap, BitVec.ofInt_add]
  exact congrArg (· + wrap n) (wrap_unsigned v)

theorem wrap_unsigned_sub_one (v : Word) : wrap (unsigned v - 1) = v - 1 := by
  rw [sub_eq_add_neg, wrap_unsigned_add, sub_eq_add_neg]
  rfl

theorem wrap_unsigned_add_succ (v : Word) (n : Nat) : wrap (unsigned v + ((n : Int) + 1)) = v + BitVec.ofNat 16 (n + 1) := by
  rw [wrap_unsigned_add]
  exact congrArg (v + ·) (BitVec.ofInt_natCast 16 (n + 1))

/-- The table read backwards and forwards gives the operand again, when the next word is the operand's trailing word. -/
theorem operandOfCode_code {o : Operand} {nw : Word} (h : o.trailing = [] ∨ o.trailing = [nw]) :
    operandOfCode o.code nw = o := by
  cases o with
  | reg r => cases r <;> rfl
  | regInd r => cases r <;> rfl
  | regIndNext r x =>
    obtain rfl : x = nw := by simpa [Operand.trailing] using h
    rw [Operand.code]
    cases r <;> rfl
  | pick x | memNext x | litNext x =>
    obtain rfl : x = nw := by simpa [Operand.trailing] using h
    rfl
  | inlineLit k =>
    have hconsumes : ∀ k, consumesNext (Operand.inlineLit k).code = false := by decide
    have hzero : ∀ k, operandOfCode (Operand.inlineLit k).code 0 = .inlineLit k := by decide
    exact (operandOfCode_of_not_consumes (hconsumes k) nw 0).trans (hzero k)
  | pushPop | peek | sp | pc | ex => rfl

/-- An operand whose code consumes no trailing word has none (R76). -/
theorem Operand.trailing_of_not_consumes {o : Operand} (h : consumesNext o.code = false) : o.trailing = [] := by
  have hcount := o.consumesNext_code
  rw [h] at hcount
  exact List.eq_nil_of_length_eq_zero hcount.symm

end Sys2Proof

namespace Sys2Proof.Claims
open Sys2Proof.Machine

/-- A row of the operand-code table holds in both directions as soon as encoding gives its code. -/
theorem codeStandsFor_of_code {c : Nat} {nw : Word} {o : Operand} (hc : o.code.toNat = c)
    (h : o.trailing = [] ∨ o.trailing = [nw]) : CodeStandsFor c nw o := by
  refine ⟨hc, ?_⟩
  rw [← hc, BitVec.ofNat_toNat, BitVec.setWidth_eq]
  exact operandOfCode_code h

/-- The three rows of each general register (R21, R115 to R117). -/
theorem codeStandsFor_registers (nw : Word) (k : Fin 8) :
    CodeStandsFor k.val nw (.reg (registerNumbered k)) ∧
    CodeStandsFor (0x08 + k.val) nw (.regInd (registerNumbered k)) ∧
    CodeStandsFor (0x10 + k.val) nw (.regIndNext (registerNumbered k) nw) := by
  have hcode : ∀ k : Fin 8, (Operand.reg (registerNumbered k)).code.toNat = k.val ∧
      (Operand.regInd (registerNumbered k)).code.toNat = 0x08 + k.val ∧
      (0x10 + (registerNumbered k).code.setWidth 6 : BitVec 6).toNat = 0x10 + k.val := by decide
  obtain ⟨hreg, hind, hnext⟩ := hcode k
  exact ⟨codeStandsFor_of_code hreg (.inl rfl), codeStandsFor_of_code hind (.inl rfl),
    codeStandsFor_of_code hnext (.inr rfl)⟩

/-- The rows of the inline literals (R77, R127). -/
theorem codeStandsFor_inlineLit (nw : Word) (k : BitVec 5) : CodeStandsFor (0x20 + k.toNat) nw (.inlineLit k) := by
  have hcode : ∀ k : BitVec 5, (Operand.inlineLit k).code.toNat = 0x20 + k.toNat := by decide
  exact codeStandsFor_of_code (hcode k) (.inl rfl)

/-- The handle of a next-word literal, as LIT_WRITE says (R125, D7). -/
theorem resolve_litNext (sl : Slot) (n : Nat) (nw : Word) (s : State) :
    resolve sl n (.litNext nw) s =
      if s.litWrite = .discard then .lit nw else .ram (wrap (unsigned s.pc + ((n : Int) + 1))) := by
  rw [wrap_unsigned_add_succ]
  cases h : s.litWrite with
  | discard => simp [resolve, h]
  | writeThrough => simp [resolve, h]

/-- Only PUSH and POP adjust SP (R118, R119). -/
theorem spEffect_of_ne_pushPop (sl : Slot) {o : Operand} (h : o ≠ .pushPop) : spEffect sl o = [] := by
  cases o with
  | pushPop => exact absurd rfl h
  | _ => rfl

end Sys2Proof.Claims
end

section
/-! PROOFS. The statements of 10_state.md, each from the lemmas above and those of the model's laws. -/

namespace Sys2Proof.Claims
open Sys2Proof.Machine

/-- Settles O42: live memory by `step_mem_wf`, and the snapshot is the one before the step. -/
theorem stepKeepsCanonicalMemory : Obligations.StepKeepsCanonicalMemory := by
  intro s t w h
  obtain ⟨wmem, wimg⟩ := s.wf_iff.mp w
  obtain ⟨n, -, himg, -⟩ := step_withUnread h
  exact t.wf_iff.mpr ⟨step_mem_wf h wmem, by rw [himg]; exact wimg⟩

/-- Settles O45: the counter is one of the two fields every operation of a step commutes with replacing. -/
theorem cyclesDoNotInfluenceAnything : Obligations.CyclesDoNotInfluenceAnything := by
  intro s c
  refine ⟨fun t h => ?_, fun f h => step_fault_withUnread h c s.img⟩
  obtain ⟨n, hcycles, himg, hstep⟩ := step_withUnread h
  rw [hcycles, Nat.add_sub_cancel_left]
  refine ⟨?_, Nat.le_add_right s.cycles n⟩
  calc step { s with cycles := c }
      = .next (t.withUnread (c + n) s.img) := hstep c s.img
    _ = .next { t with cycles := c + n } := by rw [← himg]; rfl

/-- Settles O46: the snapshot is the other field a step commutes with replacing; the load is read by
`Memory.read_ofWords`. -/
theorem snapshotOnlyForLoadAndReset : Obligations.SnapshotOnlyForLoadAndReset := by
  refine ⟨fun s m => ⟨fun t h => ?_, fun f h => step_fault_withUnread h s.cycles m⟩, fun s => ⟨rfl, rfl⟩, ?_⟩
  · obtain ⟨n, hcycles, himg, hstep⟩ := step_withUnread h
    refine ⟨himg, ?_⟩
    calc step { s with img := m }
        = .next (t.withUnread (s.cycles + n) m) := hstep s.cycles m
      _ = .next { t with img := m } := by rw [← hcycles]; rfl
  · intro s bytes ws h
    have hload : s.loadImage bytes = s.loadWords ws := by rw [State.loadImage, h]
    have hread : ∀ k, (Memory.ofWords 0 ws).read k = ws.getD k 0 := fun k => by
      simp [Memory.read_ofWords, Memory.unlisted]
    rw [hload]
    exact ⟨rfl, fun k => ⟨hread k, hread k⟩⟩

/-- Settles O48, by `Memory.eq_of_read_eq` from address 0. -/
theorem canonicalMemoryIsDeterminedByItsWords : Obligations.CanonicalMemoryIsDeterminedByItsWords := by
  intro m m' w w' h
  simp only [Memory.wf, Bool.and_eq_true] at w w'
  obtain ⟨wfrom, -⟩ := w
  obtain ⟨wfrom', -⟩ := w'
  exact Memory.eq_of_read_eq wfrom wfrom' h

/-- Settles O7: the codes by `codeStandsFor_of_code`, the handles row by row of `resolve`. -/
theorem operandHandles : Obligations.OperandHandles := by
  intro s sl n r nw
  have noWord : ∀ {c o}, o.code.toNat = c → o.trailing = [] → CodeStandsFor c nw o :=
    fun hc ht => codeStandsFor_of_code hc (.inl ht)
  have oneWord : ∀ {c o}, o.code.toNat = c → o.trailing = [nw] → CodeStandsFor c nw o :=
    fun hc ht => codeStandsFor_of_code hc (.inr ht)
  refine ⟨codeStandsFor_registers nw, noWord rfl rfl, noWord rfl rfl, oneWord rfl rfl, noWord rfl rfl,
    noWord rfl rfl, noWord rfl rfl, oneWord rfl rfl, oneWord rfl rfl,
    codeStandsFor_inlineLit nw, rfl, rfl, ?regIndNext, ?push, rfl, rfl, rfl, rfl, ?pick, rfl, rfl, rfl, rfl,
    resolve_litNext sl n nw s, fun k => rfl, fun o h => spEffect_of_ne_pushPop sl h, rfl, rfl, rfl, rfl,
    fun o h => Operand.trailing_of_not_consumes h⟩
  case regIndNext => rw [wrap_unsigned_add, wrap_unsigned]; rfl
  case push => rw [wrap_unsigned_sub_one]; rfl
  case pick => rw [wrap_unsigned_add, wrap_unsigned]; rfl

/-- Settles O43: the reset state lists no word, so every address reads as an unlisted one. -/
theorem resetIsCanonical : Obligations.ResetIsCanonical := by
  have hreg : ∀ r, State.reset.readReg r = 0 := by
    intro r
    cases r with
    | gen g => cases g <;> rfl
    | sp => rfl
    | pc => rfl
    | ex => rfl
  exact ⟨rfl, hreg, fun x => rfl, fun a => rfl, rfl, rfl⟩

/-- Settles O49, by the laws of `writeReg`. -/
theorem registersDoNotAlias : Obligations.RegistersDoNotAlias := by
  intro s r q v
  exact ⟨State.readReg_writeReg s r q v, State.writeReg_mem s r v, State.writeReg_cycles s r v,
    State.writeReg_skip s r v, State.writeReg_img s r v, State.writeReg_litWrite s r v⟩

end Sys2Proof.Claims
end

section
/-! SUPPORT. The images the loader reads: it reads back the bytes of a list of words that fits in memory, every image it
accepts has two bytes for each word, and what a load writes and keeps (20_memory.md R53; 70_reset_and_hazards.md R231,
R232). -/

namespace Sys2Proof.Machine

/-- Two bytes, high byte first, are one word in front of the words of the rest (R53). -/
theorem wordsOfBytes_cons_cons (hi lo : Byte) (rest : List Byte) :
    wordsOfBytes (hi :: lo :: rest) =
      (wordsOfBytes rest).map (BitVec.ofNat 16 (hi.toNat * 256 + lo.toNat) :: ·) := by
  rw [wordsOfBytes]
  cases wordsOfBytes rest with
  | none => rfl
  | some ws => rfl

/-- A word is put together again from its high and its low byte (R53). -/
theorem word_of_its_bytes (w : Word) :
    BitVec.ofNat 16 ((BitVec.ofNat 8 (w.toNat / 256)).toNat * 256 + (BitVec.ofNat 8 (w.toNat % 256)).toNat) = w := by
  have hw : w.toNat < 65536 := w.isLt
  apply BitVec.eq_of_toNat_eq
  simp only [BitVec.toNat_ofNat]
  omega

theorem wordsOfBytes_bytesOfWords (ws : List Word) : wordsOfBytes (bytesOfWords ws) = some ws := by
  induction ws with
  | nil => rfl
  | cons w ws ih => rw [bytesOfWords, wordsOfBytes_cons_cons, ih, word_of_its_bytes, Option.map_some]

/-- Only a byte string of even length is read, as half as many words. -/
theorem length_of_wordsOfBytes : ∀ {bytes : List Byte} {ws : List Word},
    wordsOfBytes bytes = some ws → bytes.length = 2 * ws.length
  | [], _, h => by
    cases h
    rfl
  | [_], _, h => by cases h
  | hi :: lo :: rest, _, h => by
    rw [wordsOfBytes_cons_cons] at h
    obtain ⟨ws, hrest, rfl⟩ := Option.map_eq_some_iff.mp h
    have hlength := length_of_wordsOfBytes hrest
    simp only [List.length_cons]
    omega

theorem readImage_bytesOfWords {ws : List Word} (h : ws.length ≤ Config.memoryWords) :
    readImage (bytesOfWords ws) = .ok ws := by
  simp [readImage, wordsOfBytes_bytesOfWords, Nat.not_lt.mpr h]

/-- What an accepted image is: two bytes for each of its words, and no more words than memory has (R232). -/
theorem readImage_ok {bytes : List Byte} {ws : List Word} (h : readImage bytes = .ok ws) :
    bytes.length = 2 * ws.length ∧ ws.length ≤ Config.memoryWords := by
  unfold readImage at h
  cases hw : wordsOfBytes bytes with
  | none => simp [hw] at h
  | some vs =>
    by_cases hlong : Config.memoryWords < vs.length
    · simp [hw, hlong] at h
    · obtain rfl : vs = ws := by simpa [hw, hlong] using h
      exact ⟨length_of_wordsOfBytes hw, Nat.not_lt.mp hlong⟩

theorem State.loadImage_of_ok (s : State) {bytes : List Byte} {ws : List Word} (h : readImage bytes = .ok ws) :
    s.loadImage bytes = s.loadWords ws := by rw [State.loadImage, h]

theorem State.loadImage_of_error (s : State) {bytes : List Byte} {e : LoadError} (h : readImage bytes = .error e) :
    s.loadImage bytes = s := by rw [State.loadImage, h]

/-- Loading the bytes of words that fit in memory is loading the words (R53, R231). -/
theorem State.loadImage_bytesOfWords (s : State) {ws : List Word} (h : ws.length ≤ Config.memoryWords) :
    s.loadImage (bytesOfWords ws) = s.loadWords ws :=
  s.loadImage_of_ok (readImage_bytesOfWords h)

@[simp] theorem State.loadWords_readReg (s : State) (ws : List Word) (r : Reg) :
    (s.loadWords ws).readReg r = s.readReg r := by
  cases r with
  | gen g => cases g <;> rfl
  | sp => rfl
  | pc => rfl
  | ex => rfl

theorem State.loadWords_mem_read (s : State) (ws : List Word) (k : Nat) : (s.loadWords ws).mem.read k = ws.getD k 0 := by
  simp [State.loadWords, Memory.read_ofWords, Memory.unlisted]

theorem State.loadWords_img (s : State) (ws : List Word) : (s.loadWords ws).img = (s.loadWords ws).mem := rfl

/-- The word at PC is the first one fetched (R112). -/
theorem State.head_fetch (s : State) : s.fetch.head? = some (s.readMem s.pc) := rfl

end Sys2Proof.Machine
end

section
/-! PROOFS. The statements of 20_memory.md: what a store and a load of an image change. -/

namespace Sys2Proof.Claims
open Sys2Proof.Machine

/-- Settles O57: words that fit are read back from their bytes and loaded, and an image of the wrong length cannot be
one that `readImage` accepts. -/
theorem loadReplacesMemoryAndSnapshot : Obligations.LoadReplacesMemoryAndSnapshot := by
  intro s
  refine ⟨fun ws hfits => ?accepted, fun bytes hlength => ?refused⟩
  case accepted =>
    rw [s.loadImage_bytesOfWords hfits]
    refine ⟨fun k => ⟨s.loadWords_mem_read ws k, ?_⟩, s.loadWords_readReg ws, rfl, rfl, rfl⟩
    rw [s.loadWords_img ws, s.loadWords_mem_read ws k]
  case refused =>
    cases hread : readImage bytes with
    | error e => exact s.loadImage_of_error hread
    | ok ws =>
      obtain ⟨hbytes, hfits⟩ := readImage_ok hread
      rw [Config.memoryWords] at hfits
      omega

/-- Settles O47: the fetch begins with a read of memory at PC, and PC is no part of memory. -/
theorem storeIsSeenByReadsAndFetch : Obligations.StoreIsSeenByReadsAndFetch := by
  intro s a v x
  refine ⟨s.readMem_writeMem a v x, ?_⟩
  calc { s.writeMem a v with pc := a }.fetch.head?
      = some ((s.writeMem a v).readMem a) := State.head_fetch _
    _ = some v := by rw [State.readMem_writeMem, if_pos rfl]

end Sys2Proof.Claims
end

section
/-! SUPPORT. The instruction word as a number: its fields by division, the fields determine the word, and the packing
formulas (30_encoding.md R71 to R73, R86, R87). -/

namespace Sys2Proof

theorem fieldO_toNat (w : Word) : (fieldO w).toNat = w.toNat % 32 := by
  simp [fieldO]

theorem fieldB_toNat (w : Word) : (fieldB w).toNat = w.toNat / 32 % 32 := by
  simp [fieldB, Nat.shiftRight_eq_div_pow]

theorem fieldA_toNat (w : Word) : (fieldA w).toNat = w.toNat / 1024 % 64 := by
  simp [fieldA, Nat.shiftRight_eq_div_pow]

/-- The three fields cover all sixteen bits (R71). -/
theorem word_eq_of_fields {w v : Word} (hO : fieldO w = fieldO v) (hB : fieldB w = fieldB v) (hA : fieldA w = fieldA v) :
    w = v := by
  have natO := congrArg BitVec.toNat hO
  have natB := congrArg BitVec.toNat hB
  have natA := congrArg BitVec.toNat hA
  rw [fieldO_toNat, fieldO_toNat] at natO
  rw [fieldB_toNat, fieldB_toNat] at natB
  rw [fieldA_toNat, fieldA_toNat] at natA
  bv_omega

/-- A word is packed again from its fields, in the basic format (R71). -/
@[simp] theorem packBasic_fields (w : Word) : packBasic (fieldO w) (fieldB w) (fieldA w) = w :=
  word_eq_of_fields (by simp) (by simp) (by simp)

/-- A word whose low five bits are zero is packed again from its fields, in the special format (R72, R73). -/
theorem packSpecial_fields {w : Word} (hO : fieldO w = 0) : packSpecial (fieldB w) (fieldA w) = w :=
  word_eq_of_fields (by simp [hO]) (by simp) (by simp)

/-- The basic format as a sum (R86). -/
theorem packBasic_eq_ofNat (o bc : BitVec 5) (ac : BitVec 6) :
    packBasic o bc ac = BitVec.ofNat 16 (o.toNat + 32 * bc.toNat + 1024 * ac.toNat) := by
  have ho := o.isLt
  have hb := bc.isLt
  have ha := ac.isLt
  apply word_eq_of_fields <;> apply BitVec.eq_of_toNat_eq
  · rw [fieldO_packBasic, fieldO_toNat, BitVec.toNat_ofNat]
    omega
  · rw [fieldB_packBasic, fieldB_toNat, BitVec.toNat_ofNat]
    omega
  · rw [fieldA_packBasic, fieldA_toNat, BitVec.toNat_ofNat]
    omega

/-- The special format is the basic one with operation code 0 and the special code in the place of operand B's (R72). -/
theorem packSpecial_eq_packBasic (o : BitVec 5) (ac : BitVec 6) : packSpecial o ac = packBasic 0 o ac :=
  word_eq_of_fields (by simp) (by simp) (by simp)

/-- The special format as a sum (R86). -/
theorem packSpecial_eq_ofNat (o : BitVec 5) (ac : BitVec 6) :
    packSpecial o ac = BitVec.ofNat 16 (32 * o.toNat + 1024 * ac.toNat) := by
  rw [packSpecial_eq_packBasic, packBasic_eq_ofNat]
  simp

end Sys2Proof
end

section
/-! SUPPORT. Decoding one operand inverts its code and its trailing word, in both directions (30_encoding.md R74, R76),
and so does decoding an instruction (R86, R87). -/

namespace Sys2Proof
open Sys2Proof.Machine

/-- An operand has one trailing word or none (R76). -/
theorem Operand.trailing_cases (o : Operand) : o.trailing = [] ∨ ∃ nw, o.trailing = [nw] := by
  cases o with
  | regIndNext r nw => exact .inr ⟨nw, rfl⟩
  | pick nw | memNext nw | litNext nw => exact .inr ⟨nw, rfl⟩
  | reg r | regInd r | inlineLit k => exact .inl rfl
  | pushPop | peek | sp | pc | ex => exact .inl rfl

/-- A code that consumes no trailing word leaves the words as they are (R76). -/
theorem decodeOperand_of_not_consumes {c : BitVec 6} (h : consumesNext c = false) (ws : List Word) :
    decodeOperand c ws = some (operandOfCode c 0, ws) := by
  simp [decodeOperand, h]

/-- An operand is read back from its code and its trailing word, and the words after that are left (R74, R76). -/
theorem decodeOperand_code (o : Operand) (ws : List Word) : decodeOperand o.code (o.trailing ++ ws) = some (o, ws) := by
  rcases o.trailing_cases with hnone | ⟨nw, hone⟩
  · have hconsumes : consumesNext o.code = false := by
      simpa [Operand.trailingCount, hnone] using o.consumesNext_code
    rw [hnone, List.nil_append, decodeOperand_of_not_consumes hconsumes, operandOfCode_code (.inl hnone)]
  · rw [hone, List.singleton_append, decodeOperand_cons, operandOfCode_code (.inr hone), Operand.trailingCount, hone]
    rfl

/-- The row a code selects has that code, whatever the next word is (R74). -/
@[simp] theorem code_operandOfCode (c : BitVec 6) (nw : Word) : (operandOfCode c nw).code = c := by
  have hzero : ∀ c, (operandOfCode c 0).code = c := by decide
  calc (operandOfCode c nw).code
      = (operandOfCode c 0).code := by simp only [operandOfCode, apply_ite Operand.code]; rfl
    _ = c := hzero c

/-- The row a code selects has the next word as its trailing word if the code consumes one (R76). -/
theorem trailing_operandOfCode (c : BitVec 6) (nw : Word) :
    (operandOfCode c nw).trailing = if consumesNext c then [nw] else [] := by
  obtain ⟨⟨k, hk⟩⟩ := c
  interval_cases k <;> rfl

/-- An operand that is read encodes to the code and the words it was read from (R74, R76). -/
theorem code_of_decodeOperand {c : BitVec 6} {ws rest : List Word} {o : Operand}
    (h : decodeOperand c ws = some (o, rest)) : o.code = c ∧ o.trailing ++ rest = ws := by
  rcases decodeOperand_some h with ⟨hc, nw, rfl, rfl⟩ | ⟨hc, rfl, rfl⟩
  · simp [trailing_operandOfCode, hc]
  · simp [trailing_operandOfCode, hc]

/-- Slot B holds exactly the operands whose code has no more than five bits (R75). -/
theorem Operand.fitsSlotB_iff (o : Operand) : o.fitsSlotB = true ↔ o.code.toNat < 32 := by
  cases o with
  | reg r => cases r <;> decide
  | regInd r => cases r <;> decide
  | regIndNext r nw => cases r <;> simp [Operand.fitsSlotB, Operand.code, GReg.code]
  | inlineLit k => revert k; decide
  | _ => simp [Operand.fitsSlotB, Operand.code]

/-- Every instruction has one of the three formats (R71, R72). -/
theorem Instr.format_cases (i : Instr) :
    (∃ op b a, i = Instr.ofBasic op b a) ∨ (∃ a, i = .jsr a) ∨ ∃ f, i = .halt f := by
  have h := i.eq_of_shape
  cases hs : i.shape with
  | basic op b a => exact .inl ⟨op, b, a, by rwa [hs] at h⟩
  | jsr a => exact .inr (.inl ⟨a, by rwa [hs] at h⟩)
  | halt f => exact .inr (.inr ⟨f, by rwa [hs] at h⟩)

theorem encode_ofBasic (op : BasicOp) (b a : Operand) :
    encode (Instr.ofBasic op b a) = packBasic op.code (b.code.setWidth 5) a.code :: (a.trailing ++ b.trailing) := by
  rw [encode, Instr.shape_ofBasic]

theorem decode_encode_ofBasic (op : BasicOp) {b : Operand} (a : Operand) (hb : b.fitsSlotB = true) (rest : List Word) :
    decode (encode (Instr.ofBasic op b a) ++ rest) = .ok (Instr.ofBasic op b a, rest) := by
  have hO : fieldO (packBasic op.code (b.code.setWidth 5) a.code) ≠ 0 := by
    rw [fieldO_packBasic]
    exact op.code_ne_zero
  rw [encode_ofBasic, List.cons_append, decode_basic (op := op) _ hO (by simp), fieldA_packBasic, fieldB_packBasic, b.setWidth_code hb,
    List.append_assoc, decodeOperand_code a]
  simp only [decodeOperand_code b]

theorem decode_encode_jsr (a : Operand) (rest : List Word) :
    decode (encode (.jsr a) ++ rest) = .ok (.jsr a, rest) := by
  have hword : encode (.jsr a) ++ rest = packSpecial 1 a.code :: (a.trailing ++ rest) := rfl
  rw [hword, decode_jsr _ (by simp) (by simp), fieldA_packSpecial, decodeOperand_code a]

theorem decode_encode_halt (f : BitVec 6) (rest : List Word) :
    decode (encode (.halt f) ++ rest) = .ok (.halt f, rest) := by
  have hword : encode (.halt f) ++ rest = packSpecial 0 f :: rest := rfl
  rw [hword, decode_halt _ (by simp) (by simp), fieldA_packSpecial]

/-- A two-operand instruction whose parts are read from a word and the words after it encodes to them (R86). -/
theorem encode_of_fields {w : Word} {op : BasicOp} {b a : Operand} {tail mid rest : List Word}
    (hop : BasicOp.ofCode (fieldO w) = some op) (ha : decodeOperand (fieldA w) tail = some (a, mid))
    (hb : decodeOperand ((fieldB w).setWidth 6) mid = some (b, rest)) :
    b.fitsSlotB = true ∧ encode (Instr.ofBasic op b a) ++ rest = w :: tail := by
  obtain ⟨hcodeA, htailA⟩ := code_of_decodeOperand ha
  obtain ⟨hcodeB, htailB⟩ := code_of_decodeOperand hb
  have hcode := BasicOp.code_of_ofCode _ _ hop
  have hcut : b.code.setWidth 5 = fieldB w := by rw [hcodeB, BitVec.setWidth_setWidth_of_le _ (by decide), BitVec.setWidth_eq]
  constructor
  · have hlt := (fieldB w).isLt
    rw [Operand.fitsSlotB_iff, hcodeB, BitVec.toNat_setWidth]
    omega
  · rw [encode_ofBasic, hcode, hcut, hcodeA, packBasic_fields, List.cons_append, List.append_assoc, htailB, htailA]

end Sys2Proof
end

section
/-! SUPPORT. Halt words and illegal words by the fields of a word, and what decoding and a step make of them
(30_encoding.md R82, R83; 40_step_and_operands.md R110, R113). -/

namespace Sys2Proof
open Sys2Proof.Machine Sys2Proof.Claims

/-- The codes that are in no row of the basic table (R80, R83). -/
theorem BasicOp.ofCode_eq_none_iff : ∀ c : BitVec 5, BasicOp.ofCode c = none ↔
    c.toNat = 0 ∨ c.toNat = 0x18 ∨ c.toNat = 0x19 ∨ c.toNat = 0x1C ∨ c.toNat = 0x1D := by decide

theorem isHaltWord_iff_fields (w : Word) : IsHaltWord w ↔ fieldO w = 0 ∧ fieldB w = 0 := by
  rw [IsHaltWord, ← BitVec.toNat_inj, ← BitVec.toNat_inj, fieldO_toNat, fieldB_toNat]
  simp only [BitVec.ofNat_eq_ofNat, BitVec.toNat_ofNat]
  omega

/-- An illegal word is a basic one with no row in the table, or a special one whose code is neither halt nor JSR (R83). -/
theorem isIllegalWord_iff_fields (w : Word) : IsIllegalWord w ↔
    (fieldO w ≠ 0 ∧ BasicOp.ofCode (fieldO w) = none) ∨ (fieldO w = 0 ∧ fieldB w ≠ 0 ∧ fieldB w ≠ 1) := by
  rw [IsIllegalWord, BasicOp.ofCode_eq_none_iff]
  simp only [ne_eq, ← BitVec.toNat_inj, fieldO_toNat, fieldB_toNat, BitVec.ofNat_eq_ofNat, BitVec.toNat_ofNat]
  omega

theorem not_isIllegalWord_of_isHaltWord {w : Word} (h : IsHaltWord w) : ¬ IsIllegalWord w := by
  unfold IsHaltWord at h
  unfold IsIllegalWord
  omega

theorem decode_of_isHaltWord {w : Word} (h : IsHaltWord w) (ws : List Word) :
    decode (w :: ws) = .ok (.halt (fieldA w), ws) := by
  obtain ⟨hO, hB⟩ := (isHaltWord_iff_fields w).mp h
  exact decode_halt ws hO hB

theorem decode_of_isIllegalWord {w : Word} (h : IsIllegalWord w) (ws : List Word) :
    ∃ e, decode (w :: ws) = .error e := by
  rcases (isIllegalWord_iff_fields w).mp h with ⟨hO, hc⟩ | ⟨hO, h0, h1⟩
  · exact ⟨_, decode_unknownBasic ws hO hc⟩
  · exact ⟨_, decode_unknownSpecial ws hO h0 h1⟩

/-- Two words are enough for both operands (R70, R76). -/
theorem decodeOperands_of_two (cA cB : BitVec 6) (x y : Word) :
    ∃ a mid b rest, decodeOperand cA [x, y] = some (a, mid) ∧ decodeOperand cB mid = some (b, rest) := by
  have hA := decodeOperand_cons cA x [y]
  rw [operandOfCode_trailingCount] at hA
  cases hc : consumesNext cA with
  | true =>
    rw [hc] at hA
    exact ⟨_, _, _, _, hA, decodeOperand_cons cB y []⟩
  | false =>
    rw [hc] at hA
    exact ⟨_, _, _, _, hA, decodeOperand_cons cB x [y]⟩

/-- A word that is no illegal word decodes when two words follow it, to a halt instruction only if it is a halt word. -/
theorem decode_of_not_isIllegalWord {w : Word} (h : ¬ IsIllegalWord w) (x y : Word) :
    ∃ i rest, decode [w, x, y] = .ok (i, rest) ∧ (¬ IsHaltWord w → i.isHalt = false) := by
  rw [isIllegalWord_iff_fields] at h
  obtain ⟨a, mid, b, rest, ha, hb⟩ := decodeOperands_of_two (fieldA w) ((fieldB w).setWidth 6) x y
  by_cases hO : fieldO w = 0
  · by_cases h0 : fieldB w = 0
    · exact ⟨_, _, decode_halt _ hO h0, fun hw => absurd ((isHaltWord_iff_fields w).mpr ⟨hO, h0⟩) hw⟩
    · have h1 : fieldB w = 1 := by
        by_contra h1
        exact h (.inr ⟨hO, h0, h1⟩)
      exact ⟨.jsr a, mid, by rw [decode_jsr _ hO h1, ha], fun _ => rfl⟩
  · cases hop : BasicOp.ofCode (fieldO w) with
    | none => exact absurd (.inl ⟨hO, hop⟩) h
    | some op =>
      refine ⟨Instr.ofBasic op b a, rest, ?_, fun _ => by simp [Instr.isHalt]⟩
      rw [decode_basic _ hO hop, ha]
      simp only [hb]

end Sys2Proof

namespace Sys2Proof.Machine
open Sys2Proof.Claims

/-- The test of the run for a halt word is the condition of R82. -/
theorem isHaltWord_iff (w : Word) : isHaltWord w = true ↔ IsHaltWord w := by
  have hmask : (w &&& 0x03FF).toNat = w.toNat % 1024 := by
    rw [BitVec.toNat_and]
    exact Nat.and_two_pow_sub_one_eq_mod w.toNat 10
  rw [isHaltWord, beq_iff_eq, ← BitVec.toNat_inj, hmask, IsHaltWord]
  rfl

theorem State.halted_iff (s : State) : s.halted = true ↔ IsHaltWord (s.readMem s.pc) := isHaltWord_iff _

theorem specOutcome_of_isHaltWord {s : State} (h : IsHaltWord (s.readMem s.pc)) : specOutcome s = .halt := by
  rw [specOutcome, if_pos (s.halted_iff.mpr h)]

theorem specOutcome_of_next {s t : State} (h : ¬ IsHaltWord (s.readMem s.pc)) (hstep : step s = .next t) :
    specOutcome s = .next t := by
  rw [specOutcome, if_neg (mt s.halted_iff.mp h), hstep]

theorem specOutcome_of_fault {s : State} {p w : Word} (h : ¬ IsHaltWord (s.readMem s.pc))
    (hstep : step s = .fault (.unknownOpcode p w)) : specOutcome s = .fault p w := by
  rw [specOutcome, if_neg (mt s.halted_iff.mp h), hstep]

/-- An executed instruction that is no halt word counts a cycle or more (R134, R241). -/
theorem exec_counts_cycles {i : Instr} (h : i.isHalt = false) (s : State) :
    ∃ t, exec i s = .next t ∧ s.cycles < t.cycles := by
  rcases exec_cases i s with ⟨op, b, a, -, hn⟩ | ⟨a, -, hn⟩ | ⟨f, rfl, -⟩
  · obtain ⟨-, -, hcycles, -⟩ := Family.run_spec (familyOf op) b a s
    have hcost := cost_pos op
    refine ⟨_, hn, ?_⟩
    rw [State.charge, State.addCycles_cycles, hcycles]
    omega
  · obtain ⟨-, -, -, -, -, -, -, -, hcycles⟩ := call_spec a s
    refine ⟨_, hn, ?_⟩
    rw [State.charge, State.addCycles_cycles, hcycles, cost]
    omega
  · cases h

/-- A step from words that decode to no halt instruction, skipped or executed, counts a cycle or more (R129, R134). -/
theorem step_counts_cycles {s : State} {i : Instr} {rest : List Word} (hd : decode s.fetch = .ok (i, rest))
    (hi : i.isHalt = false) : ∃ t, step s = .next t ∧ s.cycles < t.cycles := by
  cases hs : s.skip with
  | true => exact ⟨skipOver i s, step_of_skipped hd hs hi, Nat.lt_succ_self s.cycles⟩
  | false =>
    obtain ⟨t, ht, hlt⟩ := exec_counts_cycles hi s
    exact ⟨t, (step_of_executed hd (.inl hs)).trans ht, hlt⟩

end Sys2Proof.Machine
end

section
/-! SUPPORT. Literals: the codes of inline literals, the signed reading of a wrapped number, and which literals the
assembler puts into the operand code (30_encoding.md R77, R93; log entry 7). -/

namespace Sys2Proof
open Sys2Proof.Machine

@[simp] theorem wrap_signed (v : Word) : wrap (signed v) = v := BitVec.ofInt_toInt

/-- `wrap` loses nothing of a number in the signed range (R8). -/
theorem signed_wrap {n : Int} (hlo : -32768 ≤ n) (hhi : n ≤ 32767) : signed (wrap n) = n := by
  rw [signed, wrap, BitVec.toInt_ofInt, Int.bmod_def]
  omega

/-- A number in the upper half of the unsigned range is read as the negative one of its word (R8). -/
theorem signed_wrap_upper {n : Int} (hlo : 32768 ≤ n) (hhi : n ≤ 65535) : signed (wrap n) = n - 65536 := by
  rw [signed, wrap, BitVec.toInt_ofInt, Int.bmod_def]
  omega

/-- The code of an inline literal (R77). -/
theorem Operand.code_inlineLit_toNat (k : BitVec 5) : (Operand.inlineLit k).code.toNat = 0x20 + k.toNat := by
  revert k
  decide

end Sys2Proof

namespace Sys2Proof.Machine

/-- A slot A literal in −1..30 has the code of its value, with no trailing word (R77, R93). -/
theorem literalOperand_inline {n : Int} (hlo : -1 ≤ n) (hhi : n ≤ 30) :
    ((literalOperand .A n).code.toNat : Int) = 0x20 + n + 1 ∧ (literalOperand .A n).trailing = [] := by
  have hsigned : signed (wrap n) = n := signed_wrap (by omega) (by omega)
  have hlit : literalOperand .A n = .inlineLit (BitVec.ofInt 5 (n + 1)) := by simp [literalOperand, hsigned, hlo, hhi]
  rw [hlit, Operand.code_inlineLit_toNat, BitVec.toNat_ofInt]
  refine ⟨?_, rfl⟩
  omega

/-- Any other slot A literal is its word, in a trailing word (R93). -/
theorem literalOperand_long {n : Int} (h : signed (wrap n) < -1 ∨ 30 < signed (wrap n)) :
    literalOperand .A n = .litNext (wrap n) := by
  rw [literalOperand, if_neg (by omega)]

/-- A literal stands for its 16-bit word (log entry 7). -/
theorem literalOperand_signed_wrap (sl : Slot) (n : Int) : literalOperand sl (signed (wrap n)) = literalOperand sl n := by
  cases sl <;> simp only [literalOperand, wrap_signed]

/-- An inline literal comes from a bare literal in slot A and from nothing else (R91, R93). -/
theorem lower_eq_inlineLit {labels : Token → Option Word} {sl : Slot} {src : SrcOperand} {k : BitVec 5}
    (h : src.lower labels sl = .ok (.inlineLit k)) : sl = .A ∧ ∃ n, src = .literal n := by
  cases src with
  | literal n =>
    cases sl with
    | A => exact ⟨rfl, n, rfl⟩
    | B => cases h
  | register r =>
    cases r <;> cases h
  | labelIndirect name | label name =>
    rw [SrcOperand.lower] at h
    cases hl : labels name <;> rw [hl] at h <;> cases h
  | push | pop => cases sl <;> cases h
  | address n | indirect r | indirectPlus r n | peek | pick n => cases h

end Sys2Proof.Machine
end

section
/-! PROOFS. The statements of 30_encoding.md: decoding and encoding are inverse, which words decode and what a step makes
of the word at PC, and the literals of the operand codes. -/

namespace Sys2Proof.Claims
open Sys2Proof.Machine

/-- Settles O1, by the format of the instruction. -/
theorem decodeEncodeRoundTrip : Obligations.DecodeEncodeRoundTrip := by
  intro i rest hi
  rcases i.format_cases with ⟨op, b, a, rfl⟩ | ⟨a, rfl⟩ | ⟨f, rfl⟩
  · exact decode_encode_ofBasic op a (by simpa using hi) rest
  · exact decode_encode_jsr a rest
  · exact decode_encode_halt f rest

/-- Settles O2, by the three ways words can decode. -/
theorem encodeInvertsDecode : Obligations.EncodeInvertsDecode := by
  intro ws i rest h
  obtain ⟨w, tail, rfl, ⟨hO, hB, rfl, rfl⟩ | ⟨hO, hB, a, ha, rfl⟩ | ⟨op, b, a, mid, -, hop, ha, hb, rfl⟩⟩ := decode_ok h
  · refine ⟨rfl, ?_⟩
    calc encode (.halt (fieldA w)) ++ rest
        = packSpecial (fieldB w) (fieldA w) :: rest := by rw [hB]; rfl
      _ = w :: rest := by rw [packSpecial_fields hO]
  · obtain ⟨hcode, htail⟩ := code_of_decodeOperand ha
    refine ⟨rfl, ?_⟩
    calc encode (.jsr a) ++ rest
        = packSpecial (fieldB w) (fieldA w) :: (a.trailing ++ rest) := by rw [hB, ← hcode]; rfl
      _ = w :: tail := by rw [packSpecial_fields hO, htail]
  · rw [Instr.wellFormed_ofBasic]
    exact encode_of_fields hop ha hb

/-- Settles O6: the words fetched are the encoding of what they decode to, which has operand A's trailing word first. -/
theorem trailingWordOrder : Obligations.TrailingWordOrder := by
  intro s op b a rest h
  obtain ⟨-, hwords⟩ := encodeInvertsDecode _ _ _ h
  obtain ⟨-, htail⟩ : _ ∧ a.trailing ++ b.trailing ++ rest = [s.readMem (s.pc + 1), s.readMem (s.pc + 2)] := by
    simpa only [encode_ofBasic, List.cons_append, State.fetch, List.cons.injEq] using hwords
  rcases a.trailing_cases with hnone | ⟨va, hone⟩
  · refine ⟨fun v hv => absurd (hnone.symm.trans hv) (List.cons_ne_nil v []).symm, fun v hv => ?_⟩
    rw [hnone, hv] at htail
    obtain ⟨hv1, -⟩ := List.cons.inj htail
    rw [hnone, hv1]
    simp
  · rw [hone] at htail ⊢
    obtain ⟨hva, hrest⟩ := List.cons.inj htail
    refine ⟨fun v hv => ?_, fun v hv => ?_⟩
    · obtain ⟨rfl, -⟩ := List.cons.inj hv
      exact hva
    · rw [hv] at hrest
      obtain ⟨hv2, -⟩ := List.cons.inj hrest
      rw [hv2, add_assoc]
      rfl

/-- Settles O39: an illegal word does not decode whatever follows it, and any other does with two words after it. -/
theorem illegalWordsAreExactlyTheListed : Obligations.IllegalWordsAreExactlyTheListed := by
  intro w x y
  refine ⟨⟨fun ⟨e, he⟩ => ?_, fun hw => decode_of_isIllegalWord hw [x, y]⟩, fun hw => decode_of_isHaltWord hw [x, y]⟩
  by_contra hw
  obtain ⟨i, rest, hok, -⟩ := decode_of_not_isIllegalWord hw x y
  rw [hok] at he
  cases he

/-- Settles O38, by what the word at PC decodes to. -/
theorem outcomeDecidedByTheWord : Obligations.OutcomeDecidedByTheWord := by
  intro s w
  refine ⟨fun hw => ⟨specOutcome_of_isHaltWord hw, ?halt⟩, fun hw => ?illegal, fun hhalt hillegal => ?other,
    fun ⟨hhalt, hillegal⟩ => not_isIllegalWord_of_isHaltWord hhalt hillegal⟩
  case halt => exact step_of_executed (decode_of_isHaltWord hw _) (.inr rfl)
  case illegal =>
    obtain ⟨e, he⟩ := decode_of_isIllegalWord hw [s.readMem (s.pc + 1), s.readMem (s.pc + 2)]
    have hstep : step s = .fault (.unknownOpcode s.pc w) := step_of_not_decoded he
    exact ⟨specOutcome_of_fault (fun hhalt => not_isIllegalWord_of_isHaltWord hhalt hw) hstep, hstep⟩
  case other =>
    obtain ⟨i, rest, hd, hi⟩ := decode_of_not_isIllegalWord hillegal (s.readMem (s.pc + 1)) (s.readMem (s.pc + 2))
    obtain ⟨t, hstep, hlt⟩ := step_counts_cycles hd (hi hhalt)
    exact ⟨t, specOutcome_of_next hhalt hstep, hstep, hlt⟩

/-- Settles O3: the packing formulas as sums, and the fields of packed words. -/
theorem packedFieldsRecovered : Obligations.PackedFieldsRecovered := by
  intro o bc ac
  rw [← packBasic_eq_ofNat, ← packSpecial_eq_ofNat]
  simp

/-- Settles O4: eight words, each read by the decoder. -/
theorem specWordsDecode : Obligations.SpecWordsDecode := by
  unfold Obligations.SpecWordsDecode
  decide

/-- Settles O5, by the code of an inline literal. -/
theorem inlineLiteralValue : Obligations.InlineLiteralValue := by
  refine ⟨fun k n s => ?_, fun v hlo hhi => ?_, fun nw s n hdiscard => ?_⟩
  · have hk := k.isLt
    have hvalue : ((0x20 + k.toNat : Nat) : Int) - 0x21 = k.toNat - 1 := by omega
    rw [Operand.code_inlineLit_toNat, hvalue]
    exact ⟨by omega, by omega, rfl, rfl, operandOfCode_code (.inl rfl)⟩
  · obtain ⟨hcode, -⟩ := literalOperand_inline hlo hhi
    exact hcode
  · rw [resolve_litNext, if_pos hdiscard]

/-- Settles O36: a halt word is the special format with operation code 0, and executing it answers the state. -/
theorem haltWordChangesNothing : Obligations.HaltWordChangesNothing := by
  intro f s
  refine ⟨?_, exec_halt f s⟩
  calc encode (.halt f)
      = [packSpecial 0 f] := rfl
    _ = [BitVec.ofNat 16 (1024 * f.toNat)] := by rw [packSpecial_eq_ofNat]; simp

/-- Settles O60, range by range of the literal's value. -/
theorem literalInlining : Obligations.LiteralInlining := by
  refine ⟨fun labels n hlo hhi => ⟨_, rfl, literalOperand_inline hlo hhi⟩, fun labels n hn => ?long,
    fun labels => ⟨_, rfl, rfl, rfl⟩, fun labels sl n => ?word, fun labels n => ⟨_, rfl, rfl, rfl⟩,
    fun labels sl src k h => lower_eq_inlineLit h, by decide, by decide⟩
  case long =>
    have hsigned : signed (wrap n) < -1 ∨ 30 < signed (wrap n) := by
      by_cases hupper : 32768 ≤ n
      · rw [signed_wrap_upper hupper (by omega)]
        omega
      · rw [signed_wrap (by omega) (by omega)]
        omega
    exact ⟨.litNext (wrap n), congrArg Except.ok (literalOperand_long hsigned), rfl, rfl⟩
  case word => exact congrArg Except.ok (literalOperand_signed_wrap sl n).symm

end Sys2Proof.Claims
end

section
/-! SUPPORT. Instructions held in memory: how long an encoding is, what is fetched where memory holds one, and the step
over it with the skip flag set (30_encoding.md R70, R86; 40_step_and_operands.md R112, R129). -/

namespace Sys2Proof

/-- An encoding is the instruction word and the trailing words (R86). -/
theorem length_encode (i : Instr) : (encode i).length = 1 + i.trailingCount := by
  rcases i.format_cases with ⟨op, b, a, rfl⟩ | ⟨a, rfl⟩ | ⟨f, rfl⟩
  · simp [encode_ofBasic, Instr.trailingCount, Operand.trailingCount, Nat.add_comm]
  · exact Nat.add_comm _ _
  · rfl

theorem Instr.trailingCount_le_two (i : Instr) : i.trailingCount ≤ 2 := by
  rcases i.format_cases with ⟨op, b, a, rfl⟩ | ⟨a, rfl⟩ | ⟨f, rfl⟩
  · rw [Instr.trailingCount, Instr.shape_ofBasic]
    exact Nat.add_le_add a.trailingCount_le_one b.trailingCount_le_one
  · exact a.trailingCount_le_one.trans (by decide)
  · exact Nat.zero_le 2

/-- No instruction is longer than what is fetched (R70). -/
theorem length_encode_le_three (i : Instr) : (encode i).length ≤ 3 := by
  have htrailing := i.trailingCount_le_two
  rw [length_encode]
  omega

end Sys2Proof

namespace Sys2Proof.Claims
open Sys2Proof.Machine

/-- Memory holds two lists of words in a row exactly if it holds the first and, right after it, the second. -/
theorem holdsWords_append {s : State} {addr : Word} {ws vs : List Word} :
    HoldsWords s addr (ws ++ vs) ↔
      HoldsWords s addr ws ∧ HoldsWords s (addr + BitVec.ofNat 16 ws.length) vs := by
  constructor
  · intro h
    refine ⟨fun k hk => ?_, fun k hk => ?_⟩
    · rw [h k (by rw [List.length_append]; omega), List.getElem_append_left hk]
    · have hword := h (ws.length + k) (by rw [List.length_append]; omega)
      rw [BitVec.ofNat_add, ← add_assoc] at hword
      rw [hword, List.getElem_append_right (by omega)]
      simp
  · rintro ⟨hws, hvs⟩ k hk
    by_cases hlt : k < ws.length
    · rw [hws k hlt, List.getElem_append_left hlt]
    · obtain ⟨j, rfl⟩ := Nat.exists_eq_add_of_le (Nat.not_lt.mp hlt)
      rw [List.length_append] at hk
      rw [BitVec.ofNat_add, ← add_assoc, hvs j (by omega), List.getElem_append_right (by omega)]
      simp

/-- Up to three words held at PC are the first ones fetched (R112). -/
theorem prefix_fetch_of_holdsWords {s : State} {ws : List Word} (h : HoldsWords s s.pc ws) (hlen : ws.length ≤ 3) :
    ws <+: s.fetch := by
  refine List.prefix_iff_getElem.mpr ⟨hlen, fun k hk => ?_⟩
  rw [← h k hk]
  have hk3 : k < 3 := by omega
  interval_cases k
  · simp [State.fetch]
  · rfl
  · rfl

/-- A well-formed instruction held at PC is the one the step decodes (R112, R114). -/
theorem decode_fetch_of_holdsWords {s : State} {i : Instr} (hi : i.wellFormed = true)
    (h : HoldsWords s s.pc (encode i)) : ∃ rest, decode s.fetch = .ok (i, rest) := by
  obtain ⟨rest, hrest⟩ := prefix_fetch_of_holdsWords h (length_encode_le_three i)
  exact ⟨rest, by rw [← hrest]; exact decodeEncodeRoundTrip i rest hi⟩

end Sys2Proof.Claims

namespace Sys2Proof.Machine
open Sys2Proof.Claims

/-- Stepping over an instruction moves PC by the length of its encoding (R129). -/
theorem skipOver_eq (i : Instr) (s : State) :
    skipOver i s =
      { s with
        pc := s.pc + BitVec.ofNat 16 (encode i).length
        cycles := s.cycles + 1
        skip := i.conditional } := by
  have hpc : s.pc + 1 + BitVec.ofNat 16 i.trailingCount = s.pc + BitVec.ofNat 16 (encode i).length := by
    rw [length_encode, BitVec.ofNat_add, ← add_assoc]
    rfl
  rw [skipOver_spec, hpc]

/-- With the skip flag set, an instruction held at PC that is no halt word is stepped over (R129). -/
theorem step_of_skipped_holdsWords {s : State} {i : Instr} (hs : s.skip = true) (hi : i.wellFormed = true)
    (hhalt : i.isHalt = false) (h : HoldsWords s s.pc (encode i)) : step s = .next (skipOver i s) := by
  obtain ⟨rest, hd⟩ := decode_fetch_of_holdsWords hi h
  exact step_of_skipped hd hs hhalt

theorem isHalt_of_conditional {i : Instr} (h : i.conditional = true) : i.isHalt = false := by
  rcases i.format_cases with ⟨op, b, a, rfl⟩ | ⟨a, rfl⟩ | ⟨f, rfl⟩
  · simp [Instr.isHalt]
  · rfl
  · cases h

end Sys2Proof.Machine
end

section
/-! SUPPORT. What an executed instruction adds to the cycle counter (40_step_and_operands.md R134; 70_reset_and_hazards.md
R241). -/

namespace Sys2Proof.Machine

/-- Every instruction adds one cycle for each trailing word and its cost; for a halt word both are zero. -/
theorem exec_cycles {i : Instr} {s t : State} (h : exec i s = .next t) :
    t.cycles = s.cycles + i.trailingCount + cost i.mnemonic := by
  rcases exec_cases i s with ⟨op, b, a, rfl, hn⟩ | ⟨a, rfl, hn⟩ | ⟨f, rfl, hn⟩ <;>
    obtain rfl := Host.Outcome.next.inj (hn.symm.trans h)
  · obtain ⟨-, -, hcycles, -⟩ := Family.run_spec (familyOf op) b a s
    rw [State.charge_cycles, hcycles, Instr.trailingCount, Instr.mnemonic, Instr.shape_ofBasic]
  · obtain ⟨-, -, -, -, -, -, -, -, hcycles⟩ := call_spec a s
    rw [State.charge_cycles, hcycles]
    rfl
  · rfl

end Sys2Proof.Machine
end

section
/-! SUPPORT. Runs: what each outcome of the first step makes of a run, and what a run can come to
(40_step_and_operands.md R110, R136; 60_exceptions.md R211, R212). -/

namespace Sys2Proof.Machine
open Sys2Proof.Claims

/-- The three outcomes of a step, each with the class of the word at PC and the answer of the step (R110). -/
theorem specOutcome_cases (s : State) :
    (specOutcome s = .halt ∧ IsHaltWord (s.readMem s.pc) ∧ step s = .next s) ∨
    (specOutcome s = .fault s.pc (s.readMem s.pc) ∧ ¬ IsHaltWord (s.readMem s.pc) ∧
      step s = .fault (.unknownOpcode s.pc (s.readMem s.pc))) ∨
    (∃ t, specOutcome s = .next t ∧ ¬ IsHaltWord (s.readMem s.pc) ∧ step s = .next t) := by
  obtain ⟨hhalted, hfaulted, hnext, -⟩ := outcomeDecidedByTheWord s
  by_cases hhalt : IsHaltWord (s.readMem s.pc)
  · obtain ⟨hout, hstep⟩ := hhalted hhalt
    exact .inl ⟨hout, hhalt, hstep⟩
  · by_cases hillegal : IsIllegalWord (s.readMem s.pc)
    · obtain ⟨hout, hstep⟩ := hfaulted hillegal
      exact .inr (.inl ⟨hout, hhalt, hstep⟩)
    · obtain ⟨t, hout, hstep, -⟩ := hnext hhalt hillegal
      exact .inr (.inr ⟨t, hout, hhalt, hstep⟩)

theorem of_specOutcome_halt {s : State} (h : specOutcome s = .halt) :
    IsHaltWord (s.readMem s.pc) ∧ step s = .next s := by
  rcases specOutcome_cases s with ⟨-, hword, hstep⟩ | ⟨hout, -⟩ | ⟨t, hout, -⟩
  · exact ⟨hword, hstep⟩
  · cases hout.symm.trans h
  · cases hout.symm.trans h

theorem of_specOutcome_fault {s : State} {p w : Word} (h : specOutcome s = .fault p w) :
    ¬ IsHaltWord (s.readMem s.pc) ∧ p = s.pc ∧ w = s.readMem s.pc ∧ step s = .fault (.unknownOpcode p w) := by
  rcases specOutcome_cases s with ⟨hout, -⟩ | ⟨hout, hword, hstep⟩ | ⟨t, hout, -⟩
  · cases hout.symm.trans h
  · obtain ⟨rfl, rfl⟩ := SpecOutcome.fault.inj (hout.symm.trans h)
    exact ⟨hword, rfl, rfl, hstep⟩
  · cases hout.symm.trans h

theorem of_specOutcome_next {s t : State} (h : specOutcome s = .next t) :
    ¬ IsHaltWord (s.readMem s.pc) ∧ step s = .next t := by
  rcases specOutcome_cases s with ⟨hout, -⟩ | ⟨hout, -⟩ | ⟨u, hout, hword, hstep⟩
  · cases hout.symm.trans h
  · cases hout.symm.trans h
  · obtain rfl := SpecOutcome.next.inj (hout.symm.trans h)
    exact ⟨hword, hstep⟩

/-! ### A run by the outcome of its first step (R136) -/

theorem runFor_of_halt {s : State} (h : specOutcome s = .halt) (n : Nat) : runFor (n + 1) s = .halted s := by
  obtain ⟨hword, -⟩ := of_specOutcome_halt h
  rw [runFor_succ, if_pos ((isHaltWord_iff _).mpr hword)]

theorem runFor_of_fault {s : State} {p w : Word} (h : specOutcome s = .fault p w) (n : Nat) :
    runFor (n + 1) s = .faulted p w s := by
  obtain ⟨hword, -, -, hstep⟩ := of_specOutcome_fault h
  rw [runFor_succ, if_neg (mt (isHaltWord_iff _).mp hword), hstep]

theorem runFor_of_next {s t : State} (h : specOutcome s = .next t) (n : Nat) : runFor (n + 1) s = runFor n t := by
  obtain ⟨hword, hstep⟩ := of_specOutcome_next h
  rw [runFor_succ, if_neg (mt (isHaltWord_iff _).mp hword), hstep]

/-- What a run comes to: its steps are used up, or it ends at a state whose step halts or faults, and then it ends there
however many more steps it has. -/
theorem runFor_cases (n : Nat) (s : State) :
    (∃ u, runFor n s = .stopped u) ∨
    (∃ u, specOutcome u = .halt ∧ ∀ k, runFor (n + k) s = .halted u) ∨
    (∃ u p w, specOutcome u = .fault p w ∧ ∀ k, runFor (n + k) s = .faulted p w u) := by
  induction n generalizing s with
  | zero => exact .inl ⟨s, rfl⟩
  | succ n ih =>
    simp only [Nat.add_right_comm n 1]
    rcases specOutcome_cases s with ⟨hout, -⟩ | ⟨hout, -⟩ | ⟨t, hout, -⟩
    · exact .inr (.inl ⟨s, hout, fun k => runFor_of_halt hout (n + k)⟩)
    · exact .inr (.inr ⟨s, _, _, hout, fun k => runFor_of_fault hout (n + k)⟩)
    · simp only [runFor_of_next hout]
      exact ih t

end Sys2Proof.Machine
end

section
/-! SUPPORT. The prepared state and a copy in the terms of the statements: the values of the operands and the registers
when the instruction operates (40_step_and_operands.md R128, R130, R131). -/

namespace Sys2Proof.Claims
open Sys2Proof.Machine

/-- Only POP adjusts SP for slot A, by one up (R119). -/
theorem spEffect_A_sum (o : Operand) : (spEffect .A o).sum = if o = .pushPop then 1 else 0 := by
  by_cases h : o = .pushPop
  · rw [h]
    rfl
  · rw [spEffect_of_ne_pushPop .A h, if_neg h]
    rfl

/-- Only PUSH adjusts SP for slot B, by one down (R118). -/
theorem spEffect_B_sum (o : Operand) : (spEffect .B o).sum = if o = .pushPop then -1 else 0 := by
  by_cases h : o = .pushPop
  · rw [h]
    rfl
  · rw [spEffect_of_ne_pushPop .B h, if_neg h]
    rfl

/-- The registers of the prepared state (R128, R130). -/
theorem prepareBasic_readReg (b a : Operand) (s : State) (r : Reg) :
    (prepareBasic b a s).readReg r = basicReg b a s r := by
  cases r with
  | gen g => exact prepareBasic_readGen b a s g
  | sp => simp [State.readReg, basicReg, regAtExecution, spAtExecution, spEffect_A_sum, spEffect_B_sum, add_assoc]
  | pc =>
    simp [State.readReg, basicReg, regAtExecution, trailingWords, Operand.trailingCount, BitVec.ofNat_add, add_assoc]
  | ex => exact prepareBasic_ex b a s

/-- Reading a handle in the prepared state (R131). -/
theorem rd_prepareBasic (h : Handle) (b a : Operand) (s : State) :
    rd h (prepareBasic b a s) = valueAtExecution (trailingWords b a) (spAtExecution b a s) s h := by
  cases h with
  | reg r => exact prepareBasic_readReg b a s r
  | ram x => exact prepareBasic_readMem b a s x
  | lit v => rfl

theorem copy_readReg (b a : Operand) (s : State) (r : Reg) :
    (copy b a s).readReg r = if handleB b a s = .reg r then valueA b a s else basicReg b a s r := by
  obtain ⟨hreg, -⟩ := copy_spec b a s
  rw [hreg, rd_prepareBasic, prepareBasic_readReg]
  rfl

theorem copy_readMem (b a : Operand) (s : State) (x : Word) :
    (copy b a s).readMem x = if handleB b a s = .ram x then valueA b a s else s.readMem x := by
  obtain ⟨-, hmem, -⟩ := copy_spec b a s
  rw [hmem, rd_prepareBasic]
  rfl

theorem exec_set (b a : Operand) (s : State) : exec (.set b a) s = .next ((copy b a s).charge (.basic .set)) := rfl

/-- `SET PUSH, a` stores the value of `a` one below SP and leaves SP there (R118, R140). -/
theorem exec_set_push {a : Operand} (ha : a ≠ .pushPop) (s : State) :
    ∃ t, exec (.set .pushPop a) s = .next t ∧ t.sp = s.sp - 1 ∧ t.readMem (s.sp - 1) = valueA .pushPop a s := by
  have hB : handleB .pushPop a s = .ram (s.sp - 1) := rfl
  refine ⟨_, exec_set _ _ s, ?_, ?_⟩
  · calc (copy .pushPop a s).sp
        = basicReg .pushPop a s .sp := by rw [← State.readReg, copy_readReg, hB, if_neg Handle.noConfusion]
      _ = s.sp - 1 := by simp [basicReg, regAtExecution, spAtExecution, ha, sub_eq_add_neg]
  · rw [State.charge_readMem, copy_readMem, hB, if_pos rfl]

/-- `SET r, POP` reads the word at SP into `r` and leaves SP one above (R119, R140). -/
theorem exec_set_pop (r : GReg) (s : State) :
    ∃ t, exec (.set (.reg r) .pushPop) s = .next t ∧ t.sp = s.sp + 1 ∧ t.readGen r = s.readMem s.sp := by
  have hB : handleB (.reg r) .pushPop s = .reg (.gen r) := rfl
  refine ⟨_, exec_set _ _ s, ?_, ?_⟩
  · calc (copy (.reg r) .pushPop s).sp
        = basicReg (.reg r) .pushPop s .sp := by rw [← State.readReg, copy_readReg, hB, if_neg (by simp)]
      _ = s.sp + 1 := by simp [basicReg, regAtExecution, spAtExecution]
  · calc ((copy (.reg r) .pushPop s).charge (.basic .set)).readGen r
        = (copy (.reg r) .pushPop s).readReg (.gen r) := State.charge_readGen _ _ r
      _ = valueA (.reg r) .pushPop s := by rw [copy_readReg, hB, if_pos rfl]
      _ = s.readMem s.sp := rfl

end Sys2Proof.Claims
end

section
/-! PROOFS. The statements of 40_step_and_operands.md: the step over and of a decoded instruction, its cycles, runs, and
the stack operands of SET. -/

namespace Sys2Proof.Claims
open Sys2Proof.Machine

/-- Settles O40, by the case of the step: executed (a halt word too) or stepped over; a run of one step that faults is
still at its first state. -/
theorem cycleAccounting : Obligations.CycleAccounting := by
  refine ⟨fun s i rest t hd hstep => ⟨fun hi => ?halt, fun hi hs => ?skipped, fun hi hs => ?executed⟩,
    fun s u p w hrun => ?fault, ⟨_, rfl, by decide, by decide, by decide⟩⟩
  case halt =>
    rw [step_of_executed hd (.inr hi)] at hstep
    rcases i.format_cases with ⟨op, b, a, rfl⟩ | ⟨a, rfl⟩ | ⟨f, rfl⟩
    · simp [Instr.isHalt] at hi
    · cases hi
    · exact exec_cycles hstep
  case skipped =>
    rw [step_of_skipped hd hs hi] at hstep
    obtain rfl := Host.Outcome.next.inj hstep
    rfl
  case executed =>
    rw [step_of_executed hd (.inl hs)] at hstep
    exact exec_cycles hstep
  case fault =>
    rcases specOutcome_cases s with ⟨hout, -⟩ | ⟨hout, -⟩ | ⟨v, hout, -⟩
    · cases (runFor_of_halt hout 0).symm.trans hrun
    · obtain ⟨-, -, rfl⟩ := RunEnd.faulted.inj ((runFor_of_fault hout 0).symm.trans hrun)
      rfl
    · cases (runFor_of_next hout 0).symm.trans hrun

/-- Settles O41, by induction on the chain: the first instruction is stepped over, and the rest of the chain is held
where PC then stands. -/
theorem skipPassesOverAChain : Obligations.SkipPassesOverAChain := by
  intro chain last s hs hchain hlast hcond hhalt hwords
  induction chain generalizing s with
  | nil =>
    rw [List.nil_append, List.flatMap_singleton] at hwords ⊢
    rw [List.length_nil, core_run_next (step_of_skipped_holdsWords hs hlast hhalt hwords), core_run_zero, skipOver_eq,
      hcond]
  | cons i chain ih =>
    obtain ⟨⟨hi, hicond⟩, hrest⟩ := List.forall_mem_cons.mp hchain
    rw [List.cons_append, List.flatMap_cons] at hwords ⊢
    obtain ⟨hfirst, htail⟩ := holdsWords_append.mp hwords
    have hstep := step_of_skipped_holdsWords hs hi (isHalt_of_conditional hicond) hfirst
    rw [skipOver_eq, hicond] at hstep
    have hpc : s.pc + BitVec.ofNat 16 (encode i ++ (chain ++ [last]).flatMap encode).length =
        s.pc + BitVec.ofNat 16 (encode i).length + BitVec.ofNat 16 ((chain ++ [last]).flatMap encode).length := by
      rw [List.length_append, BitVec.ofNat_add, add_assoc]
    have hcycles : s.cycles + (chain.length + 1 + 1) = s.cycles + 1 + (chain.length + 1) := by omega
    rw [List.length_cons, core_run_next hstep, ih _ rfl hrest htail, hpc, hcycles]

/-- Settles O50: the outcomes of the first step one by one, and what a run can come to by `runFor_cases`. -/
theorem runEndsAtFirstHaltOrFault : Obligations.RunEndsAtFirstHaltOrFault := by
  intro n k s t u p w r
  refine ⟨runFor_zero s, fun h => runFor_of_halt h n, fun h => runFor_of_fault h n, fun h => runFor_of_next h n, ?_⟩
  rcases runFor_cases n s with ⟨v, hrun⟩ | ⟨v, hout, hrun⟩ | ⟨v, q, x, hout, hrun⟩
  · simp [hrun]
  · have hn : runFor n s = .halted v := hrun 0
    obtain ⟨hword, hstep⟩ := of_specOutcome_halt hout
    rw [hn, hrun k]
    refine ⟨RunEnd.noConfusion, fun h => ?_, RunEnd.noConfusion⟩
    obtain rfl := RunEnd.halted.inj h
    exact ⟨rfl, hword, hstep⟩
  · have hn : runFor n s = .faulted q x v := hrun 0
    obtain ⟨-, hp, hw, hstep⟩ := of_specOutcome_fault hout
    rw [hn, hrun k]
    refine ⟨RunEnd.noConfusion, RunEnd.noConfusion, fun h => ?_⟩
    obtain ⟨rfl, rfl, rfl⟩ := RunEnd.faulted.inj h
    exact ⟨rfl, hp, hw, hstep⟩

/-- Settles O51: POP reads the word PUSH stored, and SP comes back. -/
theorem pushThenPopRestores : Obligations.PushThenPopRestores := by
  intro s a r ha
  obtain ⟨t, hpush, hsp, hstored⟩ := exec_set_push ha s
  obtain ⟨u, hpop, hsp', hread⟩ := exec_set_pop r t
  refine ⟨t, u, hpush, hpop, hsp, ?_, ?_⟩
  · rw [hsp', hsp, sub_add_cancel]
  · rw [hread, hsp, hstored]

/-- Settles O37: the two answers of a step to words that decode, the skip by `skipOver_eq`. -/
theorem stepRunsDecodedInstruction : Obligations.StepRunsDecodedInstruction := by
  intro s i rest hd
  refine ⟨fun hrun => step_of_executed hd hrun, fun hs hi => ?_⟩
  rw [step_of_skipped hd hs hi, skipOver_eq]

end Sys2Proof.Claims
end

section
/-! SUPPORT. Two-operand instructions in the terms of the statements: the instruction word, the address a write to `b`
stores to, and what an instruction of the copying shapes does (30_encoding.md R86; 41_move.md R140 to R142). -/

namespace Sys2Proof.Claims
open Sys2Proof.Machine

/-- Cutting operand B's code to its five bits is taking it modulo 32 (R86), also for the codes slot B cannot hold. -/
theorem head_encode_ofBasic (op : BasicOp) (b a : Operand) :
    (encode (Instr.ofBasic op b a)).head? = some (basicWord op.code.toNat b a) := by
  rw [encode_ofBasic, List.head?_cons, packBasic_eq_ofNat, BitVec.toNat_setWidth, basicWord]

theorem storeAddress_eq_some_iff (b a : Operand) (s : State) (x : Word) :
    storeAddress b a s = some x ↔ handleB b a s = .ram x := by
  rw [storeAddress]
  cases handleB b a s with
  | reg r => simp
  | ram y => simp
  | lit v => simp

theorem trailingWords_eq (b a : Operand) : trailingWords b a = a.trailingCount + b.trailingCount := rfl

/-- Moving I and J as an addition to every register, of `d` to those two and of nothing to the others (R141, R142). -/
theorem bumpIJ_readReg_eq_add (s : State) (d : Word) (r : Reg) :
    (s.bumpIJ d).readReg r = s.readReg r + (if r = .gen .I ∨ r = .gen .J then d else 0) := by
  rw [State.bumpIJ_readReg]
  split
  · rfl
  · exact (add_zero _).symm

/-- The frame of a copy: it stores to operand B's memory word only. -/
theorem copy_readMem_storeAddress (b a : Operand) (s : State) (x : Word) :
    (copy b a s).readMem x = if storeAddress b a s = some x then valueA b a s else s.readMem x := by
  simp only [copy_readMem, storeAddress_eq_some_iff]

theorem copy_sameControl (b a : Operand) (s : State) : SameControl s (copy b a s) := by
  obtain ⟨-, -, hskip, himg, hlit, -⟩ := copy_spec b a s
  exact ⟨hskip, himg, hlit⟩

theorem copy_cycles (b a : Operand) (s : State) : (copy b a s).cycles = s.cycles + trailingWords b a := by
  obtain ⟨-, -, -, -, -, hcycles⟩ := copy_spec b a s
  rw [hcycles, trailingWords_eq]

/-- An operation of the shape of SET writes operand A's value and no EX, at its own code and cost. -/
theorem writesB_of_copy {op : BasicOp} (h : familyOf op = .copy) :
    WritesB (Instr.ofBasic op) op.code.toNat (cost (.basic op)) fun _ va _ => (va, none) := by
  intro b a s
  refine ⟨head_encode_ofBasic op b a, (copy b a s).charge (.basic op), ?exec, fun r _ => ?reg, ?ex, fun x => ?mem,
    copy_sameControl b a s, ?cycles⟩
  case exec => rw [exec_ofBasic, h, Family.run]
  case reg => rw [State.charge_readReg, copy_readReg]
  case ex => exact copy_readReg b a s .ex
  case mem => rw [State.charge_readMem, copy_readMem_storeAddress]
  case cycles => rw [State.charge_cycles, copy_cycles]

/-- An operation of the shape of STI and STD copies and then moves I and J by its `d`, at its own code and cost. -/
theorem copiesAndMoves_of_copyAndMove {op : BasicOp} {d : Word} (h : familyOf op = .copyAndMove d) :
    CopiesAndMoves (Instr.ofBasic op) op.code.toNat (cost (.basic op)) d := by
  intro b a s
  refine ⟨head_encode_ofBasic op b a, ((copy b a s).bumpIJ d).charge (.basic op), ?exec, fun r => ?reg, fun x => ?mem,
    copy_sameControl b a s, ?cycles⟩
  case exec => rw [exec_ofBasic, h, Family.run]
  case reg => rw [State.charge_readReg, bumpIJ_readReg_eq_add, copy_readReg]
  case mem => rw [State.charge_readMem, State.bumpIJ_readMem, copy_readMem_storeAddress]
  case cycles => rw [State.charge_cycles, State.bumpIJ_cycles, copy_cycles]

end Sys2Proof.Claims
end

section
/-! PROOFS. The statements of 41_move.md: SET, STI and STD by their shapes. -/

namespace Sys2Proof.Claims
open Sys2Proof.Machine

/-- Settles O8: SET is the copying shape with code 0x01 and one cycle. -/
theorem setCopiesAToB : Obligations.SetCopiesAToB :=
  writesB_of_copy (op := .set) rfl

/-- Settles O9: STI is the copying and moving shape with `d` = 1, code 0x1E and two cycles. -/
theorem stiCopiesThenIncrements : Obligations.StiCopiesThenIncrements :=
  copiesAndMoves_of_copyAndMove (op := .sti) rfl

/-- Settles O10: STD is the copying and moving shape with `d` = 0xFFFF, which is −1 as a word, code 0x1F and two
cycles. -/
theorem stdCopiesThenDecrements : Obligations.StdCopiesThenDecrements :=
  copiesAndMoves_of_copyAndMove (op := .std) rfl

end Sys2Proof.Claims
end

section
/-! SUPPORT. The instructions of the operating shape in the terms of the statements (R150): what `operate` does, and from
it `WritesB` for every operation of that shape. -/

namespace Sys2Proof.Claims
open Sys2Proof.Machine

/-- The two parts of what an operation computes, as the statements write them: the word for `b`, and EX where it is
written (R150). -/
def resultAndEx (r : NumResult) : Word × Option Word := (r.result, r.newEx)

/-- What an operation computes, from the values of its operands when it operates (R131, R150). -/
theorem operateResult_eq (f : NumFn) (b a : Operand) (s : State) :
    operateResult f b a s = f (valueB b a s) (valueA b a s) s.ex := by
  rw [operateResult, rd_prepareBasic, rd_prepareBasic]
  rfl

theorem operate_readReg (f : NumFn) (b a : Operand) (s : State) {r : Reg} (hr : r ≠ .ex) :
    (operate f b a s).readReg r =
      if handleB b a s = .reg r then (f (valueB b a s) (valueA b a s) s.ex).result else basicReg b a s r := by
  obtain ⟨hreg, -⟩ := operate_spec f b a s
  rw [hreg r hr, operateResult_eq, prepareBasic_readReg]

/-- EX is written after `b`, so that with `b` = EX the overflow word wins where there is one (R150). -/
theorem operate_ex (f : NumFn) (b a : Operand) (s : State) :
    (operate f b a s).ex = (f (valueB b a s) (valueA b a s) s.ex).newEx.getD
      (if handleB b a s = .reg .ex then (f (valueB b a s) (valueA b a s) s.ex).result else s.ex) := by
  obtain ⟨-, hex, -⟩ := operate_spec f b a s
  rw [hex, operateResult_eq]

/-- The frame of an operation: it stores to operand B's memory word only. -/
theorem operate_readMem_storeAddress (f : NumFn) (b a : Operand) (s : State) (x : Word) :
    (operate f b a s).readMem x =
      if storeAddress b a s = some x then (f (valueB b a s) (valueA b a s) s.ex).result else s.readMem x := by
  obtain ⟨-, -, hmem, -⟩ := operate_spec f b a s
  simp only [hmem, operateResult_eq, storeAddress_eq_some_iff]

theorem operate_sameControl (f : NumFn) (b a : Operand) (s : State) : SameControl s (operate f b a s) := by
  obtain ⟨-, -, -, hskip, himg, hlit, -⟩ := operate_spec f b a s
  exact ⟨hskip, himg, hlit⟩

theorem operate_cycles (f : NumFn) (b a : Operand) (s : State) :
    (operate f b a s).cycles = s.cycles + trailingWords b a := by
  obtain ⟨-, -, -, -, -, -, hcycles⟩ := operate_spec f b a s
  rw [hcycles, trailingWords_eq]

/-- An operation of the shape of ADD writes what its entry of `NUM` computes, at its own code and cost; `f` is that entry
as a statement writes it. -/
theorem writesB_of_operate {op : BasicOp} {g : NumFn} (h : familyOf op = .operate g)
    {f : Word → Word → Word → Word × Option Word} (hf : ∀ vb va ex, resultAndEx (g vb va ex) = f vb va ex) :
    WritesB (Instr.ofBasic op) op.code.toNat (cost (.basic op)) f := by
  obtain rfl : f = fun vb va ex => resultAndEx (g vb va ex) := by
    funext vb va ex
    exact (hf vb va ex).symm
  intro b a s
  refine ⟨head_encode_ofBasic op b a, (operate g b a s).charge (.basic op), ?exec, fun r hr => ?reg, ?ex, fun x => ?mem,
    operate_sameControl g b a s, ?cycles⟩
  case exec => rw [exec_ofBasic, h, Family.run]
  case reg => exact operate_readReg g b a s hr
  case ex => exact operate_ex g b a s
  case mem => exact operate_readMem_storeAddress g b a s x
  case cycles => rw [State.charge_cycles, operate_cycles]

end Sys2Proof.Claims
end

section
/-! SUPPORT. Words and integers (R8): the two readings of a wrapped integer, a double word put together from its high and
its low word, and the word operations as wrapped integer ones. -/

namespace Sys2Proof

/-! ### The two readings of a word -/

theorem unsigned_nonneg (v : Word) : 0 ≤ unsigned v := Int.natCast_nonneg _

theorem unsigned_lt (v : Word) : unsigned v < 65536 := Int.ofNat_lt.mpr v.isLt

theorem unsigned_wrap (n : Int) : unsigned (wrap n) = n % 65536 := by
  rw [unsigned, wrap, BitVec.toNat_ofInt]
  exact Int.toNat_of_nonneg (Int.emod_nonneg n (by decide))

theorem unsigned_eq_signed_emod (v : Word) : unsigned v = signed v % 65536 := by
  rw [← unsigned_wrap, wrap_signed]

theorem unsigned_ne_zero {v : Word} (h : v ≠ 0) : unsigned v ≠ 0 := by
  intro h0
  rw [← wrap_unsigned v, h0] at h
  exact h rfl

/-! ### Double words -/

/-- The spec's `t >> 16` is floor division (R8). -/
theorem shiftRight_sixteen (t : Int) : t >>> (16 : Nat) = t / 65536 := Int.shiftRight_eq_div_pow t 16

/-- A number of 32 bits is its high and its low word, both read unsigned. -/
theorem unsigned_high_low {t : Int} (hlo : 0 ≤ t) (hhi : t < 4294967296) :
    unsigned (wrap (t / 65536)) * 65536 + unsigned (wrap t) = t := by
  rw [unsigned_wrap, unsigned_wrap]
  omega

/-- A signed number of 32 bits is its high word, read signed, and its low word, read unsigned. -/
theorem signed_high_low {t : Int} (hlo : -2147483648 ≤ t) (hhi : t < 2147483648) :
    signed (wrap (t / 65536)) * 65536 + unsigned (wrap t) = t := by
  rw [signed_wrap (by omega) (by omega), unsigned_wrap]
  omega

/-- Where the low words give `lo` with `c` carried out, and the high words `u` with `c` carried in, the two results are
the whole modulo 2^32; a borrow is a carry of −1. -/
theorem double_word_of_carry {u t c hi : Int} {lo : Word} (hlow : c * 65536 + unsigned lo = t)
    (hhigh : hi = (u + c) % 65536) : hi * 65536 + unsigned lo = (u * 65536 + t) % 4294967296 := by
  have hnonneg := unsigned_nonneg lo
  have hlt := unsigned_lt lo
  omega

/-! ### Products (R153, R154) -/

theorem wrap_mul (m n : Int) : wrap (m * n) = wrap m * wrap n := BitVec.ofInt_mul m n

/-- Both products have one low word, the word product. -/
theorem wrap_signed_mul (v w : Word) : wrap (signed v * signed w) = wrap (unsigned v * unsigned w) := by
  rw [wrap_mul, wrap_mul, wrap_signed, wrap_signed, wrap_unsigned, wrap_unsigned]

theorem unsigned_mul_lt (v w : Word) : unsigned v * unsigned w < 4294967296 :=
  calc unsigned v * unsigned w
      ≤ 65535 * 65535 := mul_le_mul (Int.le_sub_one_of_lt (unsigned_lt v)) (Int.le_sub_one_of_lt (unsigned_lt w))
        (unsigned_nonneg w) (by decide)
    _ < 4294967296 := by decide

/-! ### Quotients and remainders (R155 to R158), a divisor of zero included: the word operations take x / 0 to be 0 and
the remainder to be x, as the integer ones do -/

theorem wrap_unsigned_div (v w : Word) : wrap (unsigned v / unsigned w) = v / w := by
  rw [BitVec.udiv_def, ← BitVec.ofInt_natCast]
  rfl

theorem wrap_unsigned_mod (v w : Word) : wrap (unsigned v % unsigned w) = v % w := by
  rw [BitVec.umod_def, ← BitVec.ofInt_natCast]
  rfl

theorem wrap_signed_tdiv (v w : Word) : wrap ((signed v).tdiv (signed w)) = v.sdiv w := by
  apply BitVec.eq_of_toInt_eq
  rw [BitVec.toInt_sdiv, wrap, BitVec.toInt_ofInt]
  rfl

theorem wrap_signed_tmod (v w : Word) : wrap (signed v - signed w * (signed v).tdiv (signed w)) = v.srem w := by
  rw [← Int.tmod_def, ← wrap_signed (v.srem w)]
  exact congrArg wrap (BitVec.toInt_srem v w).symm

end Sys2Proof
end

section
/-! SUPPORT. `NUM` for the statements about it alone (R151 to R162): the carry and the borrow as the overflow of an exact
sum and difference, and the divisions by a divisor other than zero. -/

namespace Sys2Proof.Machine

/-! ### Carry and borrow -/

/-- ADD's EX is what the sum has over its low word. -/
theorem num_add_exact (vb va ex : Word) :
    unsigned ((num.add vb va ex).newEx.getD ex) * 65536 + unsigned (num.add vb va ex).result =
      unsigned vb + unsigned va := by
  have hb := unsigned_lt vb
  have ha := unsigned_lt va
  have hb0 := unsigned_nonneg vb
  have ha0 := unsigned_nonneg va
  simp only [num, numAdd, Option.getD_some, unsigned_wrap]
  split
  case isTrue hcarry => rw [show unsigned 0x0001 = 1 from rfl]; omega
  case isFalse hcarry => rw [show unsigned 0x0000 = 0 from rfl]; omega

/-- SUB's EX, read signed, is what the difference has over its low word: a borrow is −1. -/
theorem num_sub_exact (vb va ex : Word) :
    signed ((num.sub vb va ex).newEx.getD ex) * 65536 + unsigned (num.sub vb va ex).result =
      unsigned vb - unsigned va := by
  have hb := unsigned_lt vb
  have ha := unsigned_lt va
  have hb0 := unsigned_nonneg vb
  have ha0 := unsigned_nonneg va
  simp only [num, numSub, Option.getD_some, unsigned_wrap]
  split
  case isTrue hborrow => rw [show signed 0xFFFF = -1 from rfl]; omega
  case isFalse hborrow => rw [show signed 0x0000 = 0 from rfl]; omega

theorem unsigned_num_adx (vb va ex : Word) :
    unsigned (num.adx vb va ex).result = (unsigned vb + unsigned va + unsigned ex) % 65536 := unsigned_wrap _

/-- SBX adds EX unsigned (D18), which modulo 2^16 is adding it signed. -/
theorem unsigned_num_sbx (vb va ex : Word) :
    unsigned (num.sbx vb va ex).result = (unsigned vb - unsigned va + signed ex) % 65536 := by
  have hresult : unsigned (num.sbx vb va ex).result = (unsigned vb - unsigned va + unsigned ex) % 65536 := unsigned_wrap _
  rw [hresult, unsigned_eq_signed_emod ex, Int.add_emod_emod]

/-! ### Division by a divisor other than zero (R155 to R158) -/

section
variable {va : Word} (hva : va ≠ 0) (vb ex : Word)
include hva

theorem num_div_result : (num.div vb va ex).result = vb / va := by
  rw [← wrap_unsigned_div]
  exact congrArg NumResult.result (if_neg (unsigned_ne_zero hva))

theorem num_mod_result : (num.mod vb va ex).result = vb % va := by
  rw [← wrap_unsigned_mod]
  exact congrArg NumResult.result (if_neg (unsigned_ne_zero hva))

theorem num_dvi_result : (num.dvi vb va ex).result = vb.sdiv va := by
  rw [← wrap_signed_tdiv]
  exact congrArg NumResult.result (if_neg (unsigned_ne_zero hva))

theorem num_mdi_result : (num.mdi vb va ex).result = vb.srem va := by
  rw [← wrap_signed_tmod]
  exact congrArg NumResult.result (if_neg (unsigned_ne_zero hva))

end

/-- Of all signed quotients only −32768 / −1 does not fit a word. -/
theorem toInt_sdiv_of_not_overflow {vb va : Word} (h : ¬ (vb = 0x8000 ∧ va = 0xFFFF)) :
    (vb.sdiv va).toInt = vb.toInt.tdiv va.toInt :=
  BitVec.toInt_sdiv_of_ne_or_ne vb va (not_and_or.mp h)

end Sys2Proof.Machine
end

section
/-! PROOFS. The statements of 42_arithmetic.md: each instruction is the operating shape over its entry of `NUM`; the laws
of carry, product and division. -/

namespace Sys2Proof.Claims
open Sys2Proof.Machine

/-- Settles O11: the statement's formula is the entry of `NUM`. -/
theorem addWritesSumAndCarry : Obligations.AddWritesSumAndCarry :=
  writesB_of_operate (op := .add) rfl fun _ _ _ => rfl

/-- Settles O12: the statement's formula is the entry of `NUM`. -/
theorem subWritesDifferenceAndBorrow : Obligations.SubWritesDifferenceAndBorrow :=
  writesB_of_operate (op := .sub) rfl fun _ _ _ => rfl

/-- Settles O13: the shift by 16 of the entry of `NUM` is the statement's division. -/
theorem mulWritesUnsignedProduct : Obligations.MulWritesUnsignedProduct :=
  writesB_of_operate (op := .mul) rfl fun vb va _ => by
    rw [← shiftRight_sixteen (unsigned vb * unsigned va)]
    rfl

/-- Settles O14: the shift by 16 of the entry of `NUM` is the statement's division, which rounds down. -/
theorem mliWritesSignedProduct : Obligations.MliWritesSignedProduct :=
  writesB_of_operate (op := .mli) rfl fun vb va _ => by
    rw [← shiftRight_sixteen (signed vb * signed va)]
    rfl

/-- Settles O15: the entry of `NUM` makes the statement's distinction of the divisor zero. -/
theorem divWritesQuotientAndFraction : Obligations.DivWritesQuotientAndFraction :=
  writesB_of_operate (op := .div) rfl fun _ va _ => apply_ite resultAndEx (unsigned va = 0) _ _

/-- Settles O16: the entry of `NUM` makes the statement's distinction of the divisor zero. -/
theorem dviWritesSignedQuotient : Obligations.DviWritesSignedQuotient :=
  writesB_of_operate (op := .dvi) rfl fun _ va _ => apply_ite resultAndEx (unsigned va = 0) _ _

/-- Settles O17: the entry of `NUM` makes the statement's distinction of the divisor zero, and writes no EX. -/
theorem modWritesUnsignedRemainder : Obligations.ModWritesUnsignedRemainder :=
  writesB_of_operate (op := .mod) rfl fun _ va _ => apply_ite resultAndEx (unsigned va = 0) _ _

/-- Settles O18: the entry of `NUM` makes the statement's distinction of the divisor zero, and writes no EX. -/
theorem mdiWritesSignedRemainder : Obligations.MdiWritesSignedRemainder :=
  writesB_of_operate (op := .mdi) rfl fun _ va _ => apply_ite resultAndEx (unsigned va = 0) _ _

/-- Settles O25: the statement's formula is the entry of `NUM`. -/
theorem adxAddsWithEx : Obligations.AdxAddsWithEx :=
  writesB_of_operate (op := .adx) rfl fun _ _ _ => rfl

/-- Settles O26: the statement's formula is the entry of `NUM`. -/
theorem sbxSubtractsWithEx : Obligations.SbxSubtractsWithEx :=
  writesB_of_operate (op := .sbx) rfl fun _ _ _ => rfl

/-- Settles O53: ADD's EX is the exact carry and SUB's, read signed, the exact borrow, and ADX and SBX bring them into the
high word. -/
theorem carryAndBorrowChain32Bits : Obligations.CarryAndBorrowChain32Bits := by
  intro xh xl yh yl ex
  constructor
  case left =>
    have hsum := double_word_of_carry (num_add_exact xl yl ex)
      (unsigned_num_adx xh yh ((num.add xl yl ex).newEx.getD ex))
    have hregroup : (unsigned xh + unsigned yh) * 65536 + (unsigned xl + unsigned yl) =
        unsigned xh * 65536 + unsigned xl + (unsigned yh * 65536 + unsigned yl) := by ring
    rw [hregroup] at hsum
    simp only [unsigned] at hsum
    exact_mod_cast hsum
  case right =>
    have hdiff := double_word_of_carry (num_sub_exact xl yl ex)
      (unsigned_num_sbx xh yh ((num.sub xl yl ex).newEx.getD ex))
    have hregroup : (unsigned xh - unsigned yh) * 65536 + (unsigned xl - unsigned yl) =
        unsigned xh * 65536 + unsigned xl - (unsigned yh * 65536 + unsigned yl) := by ring
    rw [hregroup] at hdiff
    exact hdiff

/-- Settles O54: both low words are the word product, and each product fits 32 bits in its own reading. -/
theorem productsAreExact : Obligations.ProductsAreExact := by
  intro vb va ex
  refine ⟨wrap (unsigned vb * unsigned va), wrap ((unsigned vb * unsigned va) / 65536),
    wrap ((signed vb * signed va) / 65536), ?mul, ?mli, ?unsigned, ?signed⟩
  case mul => rw [← shiftRight_sixteen]; rfl
  case mli => rw [← wrap_signed_mul, ← shiftRight_sixteen]; rfl
  case unsigned =>
    have hexact := unsigned_high_low (mul_nonneg (unsigned_nonneg vb) (unsigned_nonneg va)) (unsigned_mul_lt vb va)
    simp only [unsigned] at hexact
    exact_mod_cast hexact
  case signed =>
    have hlo : -2 ^ 30 ≤ signed vb * signed va := BitVec.le_toInt_mul_toInt
    have hhi : signed vb * signed va ≤ 2 ^ 30 := BitVec.toInt_mul_toInt_le
    rw [← wrap_signed_mul]
    exact signed_high_low (by omega) (by omega)

/-- Settles O55: for a divisor other than zero the results are the word operations, whose integer readings the library
has; for zero, and for the one quotient that wraps, the formulas are evaluated. -/
theorem divisionLaws : Obligations.DivisionLaws := by
  intro vb va ex
  refine ⟨fun hva => ⟨num_div_result hva vb ex, num_mod_result hva vb ex, ?mdi, num_dvi_result hva vb ex, ?dvi⟩,
    ?zero, ?overflow⟩
  case mdi => rw [num_mdi_result hva]; exact BitVec.toInt_srem vb va
  case dvi =>
    intro hfits
    rw [num_dvi_result hva]
    exact toInt_sdiv_of_not_overflow hfits
  case zero =>
    rintro rfl
    exact ⟨rfl, rfl, rfl, rfl⟩
  case overflow => rw [num_dvi_result (by decide)]; rfl

end Sys2Proof.Claims
end

section
/-! SUPPORT. Shifts of integers (R8): a right shift is floor division by a power of two, and the low word of a shifted
reading of a word is the word shifted; from that the closed forms of EX (43_logic_shift.md R173 to R175). -/

namespace Sys2Proof

/-! ### Shifts as floor division -/

/-- The spec's `t >> n` is floor division (R8). -/
theorem shiftRight_eq_div (t : Int) (n : Nat) : t >>> n = t / 2 ^ n := by
  rw [Int.shiftRight_eq_div_pow, Nat.cast_pow, Nat.cast_ofNat]

/-- What SHR and ASR shift to get EX (R173, R174): the word with 16 zero bits below it. -/
theorem shiftLeft_sixteen_shiftRight (t : Int) (n : Nat) : (t <<< (16 : Nat)) >>> n = (t * 65536) / 2 ^ n := by
  rw [shiftRight_eq_div, Int.shiftLeft_eq]
  rfl

/-! ### The low word of a shifted reading, for every count: from 16 on the word shifts give 0 or the sign bits too -/

theorem wrap_unsigned_shiftLeft (v : Word) (n : Nat) : wrap (unsigned v <<< n) = v <<< n := by
  rw [unsigned, ← Int.natCast_shiftLeft, wrap, BitVec.ofInt_natCast]
  rfl

theorem wrap_unsigned_shiftRight (v : Word) (n : Nat) : wrap (unsigned v >>> n) = v >>> n := by
  rw [unsigned, ← Int.natCast_shiftRight, ← BitVec.toNat_ushiftRight]
  exact wrap_unsigned (v >>> n)

theorem wrap_signed_shiftRight (v : Word) (n : Nat) : wrap (signed v >>> n) = v.sshiftRight n := rfl

/-- The bits shifted out to the right below the word, left-aligned (R173). -/
theorem wrap_shiftLeft_sixteen_shiftRight (v : Word) (n : Nat) :
    wrap ((unsigned v <<< (16 : Nat)) >>> n) = if n < 16 then v <<< (16 - n) else v >>> (n - 16) := by
  split
  case isTrue h => rw [Int.shiftLeft_shiftRight_eq_shiftLeft_of_le h.le, wrap_unsigned_shiftLeft]
  case isFalse h => rw [Int.shiftLeft_shiftRight_eq_shiftRight_of_le (not_lt.mp h), wrap_unsigned_shiftRight]

/-- The bits shifted out to the left above the word (R175). -/
theorem wrap_shiftLeft_shiftRight_sixteen (v : Word) (n : Nat) :
    wrap ((unsigned v <<< n) >>> (16 : Nat)) = if n < 16 then v >>> (16 - n) else v <<< (n - 16) := by
  split
  case isTrue h => rw [Int.shiftLeft_shiftRight_eq_shiftRight_of_le h.le, wrap_unsigned_shiftRight]
  case isFalse h => rw [Int.shiftLeft_shiftRight_eq_shiftLeft_of_le (not_lt.mp h), wrap_unsigned_shiftLeft]

end Sys2Proof
end

section
/-! PROOFS. The statements of 43_logic_shift.md: each instruction is the operating shape over its entry of `NUM`; the
shifts as shifts of words. -/

namespace Sys2Proof.Claims
open Sys2Proof.Machine

/-- Settles O19: the statement's formula is the entry of `NUM`. -/
theorem andWritesConjunction : Obligations.AndWritesConjunction :=
  writesB_of_operate (op := .and) rfl fun _ _ _ => rfl

/-- Settles O20: the statement's formula is the entry of `NUM`. -/
theorem borWritesDisjunction : Obligations.BorWritesDisjunction :=
  writesB_of_operate (op := .bor) rfl fun _ _ _ => rfl

/-- Settles O21: the statement's formula is the entry of `NUM`. -/
theorem xorWritesExclusiveOr : Obligations.XorWritesExclusiveOr :=
  writesB_of_operate (op := .xor) rfl fun _ _ _ => rfl

/-- Settles O22: the right shifts of the entry of `NUM` are the statement's divisions. -/
theorem shrShiftsRightLogically : Obligations.ShrShiftsRightLogically :=
  writesB_of_operate (op := .shr) rfl fun vb va _ => by
    rw [← shiftRight_eq_div (unsigned vb), ← shiftLeft_sixteen_shiftRight]
    rfl

/-- Settles O23: the right shifts of the entry of `NUM`, of the signed value for `b` and of the unsigned one for EX, are
the statement's divisions, which round down. -/
theorem asrShiftsRightArithmetically : Obligations.AsrShiftsRightArithmetically :=
  writesB_of_operate (op := .asr) rfl fun vb va _ => by
    rw [← shiftRight_eq_div (signed vb), ← shiftLeft_sixteen_shiftRight]
    rfl

/-- Settles O24: the left shift of the entry of `NUM` is the statement's product, its right shift the division. -/
theorem shlShiftsLeft : Obligations.ShlShiftsLeft :=
  writesB_of_operate (op := .shl) rfl fun vb va _ => by
    rw [← shiftRight_sixteen, ← Int.shiftLeft_eq]
    rfl

/-- Settles O56: the results are the shifts of the words, EX the word shifted by the distance of the count from 16. -/
theorem shiftsInWordTerms : Obligations.ShiftsInWordTerms := by
  intro vb va ex n
  refine ⟨?shr, ?asr, ?shl⟩
  case shr => rw [← wrap_unsigned_shiftRight vb n, ← wrap_shiftLeft_sixteen_shiftRight]; rfl
  case asr => rw [← wrap_signed_shiftRight vb n, ← wrap_shiftLeft_sixteen_shiftRight]; rfl
  case shl => rw [← wrap_unsigned_shiftLeft vb n, ← wrap_shiftLeft_shiftRight_sixteen]; rfl

end Sys2Proof.Claims
end

section
/-! SUPPORT. The instructions of the testing shape in the terms of the statements (44_conditional.md R180): what
`testAndSkip` does, and from it `TestsAndSkips` for every operation of that shape. -/

namespace Sys2Proof

theorem Instr.conditional_ofBasic (op : BasicOp) (b a : Operand) :
    (Instr.ofBasic op b a).conditional = op.conditional := by
  rw [Instr.conditional, Instr.shape_ofBasic]

end Sys2Proof

namespace Sys2Proof.Machine

/-- The skip flag is no register. -/
theorem State.with_skip_readReg (s : State) (k : Bool) (r : Reg) : { s with skip := k }.readReg r = s.readReg r := by
  cases r with
  | gen g => cases g <;> rfl
  | sp => rfl
  | pc => rfl
  | ex => rfl

/-- The testing shape. -/
def Family.isTest : Family → Bool
  | .test _ => true
  | .copy | .copyAndMove _ | .operate _ => false

/-- The operations of the testing shape are the conditional ones, which a skip passes over together with the
instruction after them (R129). -/
theorem conditional_eq_isTest (op : BasicOp) : op.conditional = (familyOf op).isTest := by cases op <;> rfl

/-- Every conditional costs two cycles (R241). -/
theorem cost_of_conditional {op : BasicOp} (h : op.conditional = true) : cost (.basic op) = 2 := by
  revert h
  cases op <;> decide

end Sys2Proof.Machine

namespace Sys2Proof.Claims
open Sys2Proof.Machine

/-- The skip flag is set exactly if it was, or the test of the operands' values is false (R180). -/
theorem testAndSkip_skip (t : Word → Word → Bool) (b a : Operand) (s : State) :
    (testAndSkip t b a s).skip = (s.skip || !t (valueB b a s) (valueA b a s)) := by
  rw [testAndSkip_spec, rd_prepareBasic, rd_prepareBasic]
  rfl

/-- A test writes no register. -/
theorem testAndSkip_readReg (t : Word → Word → Bool) (b a : Operand) (s : State) (r : Reg) :
    (testAndSkip t b a s).readReg r = basicReg b a s r := by
  rw [testAndSkip_spec, State.with_skip_readReg, prepareBasic_readReg]

/-- A test writes no memory word. -/
theorem testAndSkip_readMem (t : Word → Word → Bool) (b a : Operand) (s : State) (x : Word) :
    (testAndSkip t b a s).readMem x = s.readMem x := by
  rw [testAndSkip_spec]
  exact prepareBasic_readMem b a s x

/-- An operation of the testing shape skips unless its test holds, at its own code; `P` is that test as a statement
writes it. -/
theorem testsAndSkips_of_test {op : BasicOp} {t : Word → Word → Bool} (h : familyOf op = .test t)
    {P : Word → Word → Prop} (hP : ∀ vb va, t vb va = true ↔ P vb va) :
    TestsAndSkips (Instr.ofBasic op) op.code.toNat P := by
  intro b a s
  have hcond : op.conditional = true := by rw [conditional_eq_isTest, h, Family.isTest]
  obtain ⟨himg, hlit, hcycles, -⟩ := Family.run_spec (.test t) b a s
  refine ⟨head_encode_ofBasic op b a, ?conditional, (testAndSkip t b a s).charge (.basic op), ?exec, ?skip,
    fun r => ?reg, fun x => ?mem, himg, hlit, ?cycles⟩
  case conditional => rw [Instr.conditional_ofBasic, hcond]
  case exec => rw [exec_ofBasic, h, Family.run]
  case skip =>
    rw [State.charge_skip, testAndSkip_skip, Bool.or_eq_true, Bool.not_eq_true', ← Bool.not_eq_true, hP]
  case reg => rw [State.charge_readReg, testAndSkip_readReg]
  case mem => rw [State.charge_readMem, testAndSkip_readMem]
  case cycles =>
    rw [Family.run] at hcycles
    rw [State.charge_cycles, hcycles, cost_of_conditional hcond, trailingWords_eq]

end Sys2Proof.Claims
end

section
/-! PROOFS. The statements of 44_conditional.md: each instruction is the testing shape over its own test. -/

namespace Sys2Proof.Claims
open Sys2Proof.Machine

/-- Settles O27: IFB's test is the statement's, decided. -/
theorem ifbTestsCommonBit : Obligations.IfbTestsCommonBit :=
  testsAndSkips_of_test (op := .ifb) rfl fun _ _ => decide_eq_true_iff

/-- Settles O28: IFC's test is the statement's, decided. -/
theorem ifcTestsNoCommonBit : Obligations.IfcTestsNoCommonBit :=
  testsAndSkips_of_test (op := .ifc) rfl fun _ _ => decide_eq_true_iff

/-- Settles O29: IFE's test is the statement's, decided. -/
theorem ifeTestsEqual : Obligations.IfeTestsEqual :=
  testsAndSkips_of_test (op := .ife) rfl fun _ _ => decide_eq_true_iff

/-- Settles O30: IFN's test is the statement's, decided. -/
theorem ifnTestsUnequal : Obligations.IfnTestsUnequal :=
  testsAndSkips_of_test (op := .ifn) rfl fun _ _ => decide_eq_true_iff

/-- Settles O31: IFG compares the unsigned readings as integers, the statement as naturals. -/
theorem ifgTestsUnsignedGreater : Obligations.IfgTestsUnsignedGreater :=
  testsAndSkips_of_test (op := .ifg) rfl fun _ _ => decide_eq_true_iff.trans Int.ofNat_lt

/-- Settles O32: IFA compares the signed readings, as the statement does. -/
theorem ifaTestsSignedGreater : Obligations.IfaTestsSignedGreater :=
  testsAndSkips_of_test (op := .ifa) rfl fun _ _ => decide_eq_true_iff

/-- Settles O33: IFL compares the unsigned readings as integers, the statement as naturals. -/
theorem iflTestsUnsignedLess : Obligations.IflTestsUnsignedLess :=
  testsAndSkips_of_test (op := .ifl) rfl fun _ _ => decide_eq_true_iff.trans Int.ofNat_lt

/-- Settles O34: IFU compares the signed readings, as the statement does. -/
theorem ifuTestsSignedLess : Obligations.IfuTestsSignedLess :=
  testsAndSkips_of_test (op := .ifu) rfl fun _ _ => decide_eq_true_iff

end Sys2Proof.Claims
end

section
/-! SUPPORT. JSR and the return from it in the terms of the statements: the prepared state of a one-operand instruction
(40_step_and_operands.md R128, R130, R131), the instruction word of JSR (30_encoding.md R86), and what `SET PC, POP`
does (45_special.md R200). -/

namespace Sys2Proof.Claims
open Sys2Proof.Machine

/-- SP when a one-operand instruction operates: one up for POP, which is all slot A can adjust (R119, R130). -/
def spAtCall (a : Operand) (s : State) : Word := s.sp + (if a = .pushPop then 1 else 0)

theorem prepareSpecial_sp_eq_spAtCall (a : Operand) (s : State) : (prepareSpecial a s).sp = spAtCall a s := by
  rw [prepareSpecial_sp, spEffect_A_sum, spAtCall]

/-- PC past the instruction word and the trailing words, as one sum (R128). -/
theorem pc_past_trailing (a : Operand) (s : State) :
    s.pc + 1 + BitVec.ofNat 16 a.trailingCount = s.pc + BitVec.ofNat 16 (1 + a.trailing.length) := by
  rw [BitVec.ofNat_add, ← add_assoc]
  rfl

/-- The registers of the prepared state (R128, R130). -/
theorem prepareSpecial_readReg (a : Operand) (s : State) (r : Reg) :
    (prepareSpecial a s).readReg r = regAtExecution a.trailing.length (spAtCall a s) s r := by
  cases r with
  | gen g => exact prepareSpecial_readGen a s g
  | sp => exact prepareSpecial_sp_eq_spAtCall a s
  | pc => exact (prepareSpecial_pc a s).trans (pc_past_trailing a s)
  | ex => exact prepareSpecial_ex a s

/-- Reading a handle in the prepared state (R131). -/
theorem rd_prepareSpecial (h : Handle) (a : Operand) (s : State) :
    rd h (prepareSpecial a s) = valueAtExecution a.trailing.length (spAtCall a s) s h := by
  cases h with
  | reg r => exact prepareSpecial_readReg a s r
  | ram x => exact prepareSpecial_readMem a s x
  | lit v => rfl

/-- The instruction word of JSR: the special format with operation code 0x01 (R81, R86). -/
theorem head_encode_jsr (a : Operand) :
    (encode (.jsr a)).head? = some (BitVec.ofNat 16 (0x0020 + 1024 * a.code.toNat)) :=
  congrArg some (packSpecial_eq_ofNat 1 a.code)

/-- `SET PC, POP` jumps to the word at SP and leaves SP one above; no other register and no memory word changes
(R119, R140, R200). -/
theorem exec_set_pc_pop (s : State) :
    ∃ t, exec (.set .pc .pushPop) s = .next t ∧ t.pc = s.readMem s.sp ∧ t.sp = s.sp + 1 ∧
      (∀ g, t.readGen g = s.readGen g) ∧ t.ex = s.ex ∧ t.mem = s.mem := by
  have hB : handleB .pc .pushPop s = .reg .pc := rfl
  have hother : ∀ r, r ≠ .pc → (copy .pc .pushPop s).readReg r = basicReg .pc .pushPop s r := fun r hr => by
    rw [copy_readReg, hB, if_neg fun h => hr (Handle.reg.inj h).symm]
  refine ⟨_, exec_set _ _ s, ?pc, ?sp, fun g => ?gen, ?ex, ?mem⟩
  case pc =>
    calc (copy .pc .pushPop s).readReg .pc
        = valueA .pc .pushPop s := by rw [copy_readReg, hB, if_pos rfl]
      _ = s.readMem s.sp := rfl
  case sp =>
    calc (copy .pc .pushPop s).readReg .sp
        = basicReg .pc .pushPop s .sp := hother .sp Reg.noConfusion
      _ = s.sp + 1 := by simp [basicReg, regAtExecution, spAtExecution]
  case gen => rw [State.charge_readGen]; exact hother (.gen g) Reg.noConfusion
  case ex => exact hother .ex Reg.noConfusion
  case mem => rw [State.charge_mem, copy, copyOn, wr_mem, hB, prepareBasic_mem]

end Sys2Proof.Claims
end

section
/-! PROOFS. The statements of 45_special.md: JSR, and the return from it. -/

namespace Sys2Proof.Claims
open Sys2Proof.Machine

/-- Settles O35, by what a call does to each part of the state (`call_spec`), read over the prepared state: the target
is the operand's value there, and the word pushed is the PC there. -/
theorem jsrPushesAndJumps : Obligations.JsrPushesAndJumps := by
  intro a s
  obtain ⟨hpc, hsp, hex, hgen, hmem, hskip, himg, hlit, hcycles⟩ := call_spec a s
  rw [prepareSpecial_sp_eq_spAtCall] at hsp hmem
  rw [rd_prepareSpecial] at hpc
  refine ⟨head_encode_jsr a, _, exec_jsr a s, hpc, hsp, hex, fun g => ?gen, fun x => ?mem, ⟨hskip, himg, hlit⟩, ?cycles⟩
  case gen => rw [State.charge_readGen, hgen]
  case mem =>
    rw [State.charge_readMem, hmem, pc_past_trailing]
    rfl
  case cycles =>
    rw [State.charge_cycles, hcycles]
    rfl

/-- Settles O52: JSR leaves the return address in the word at SP, and `SET PC, POP` jumps to the word at SP. -/
theorem returnUndoesCall : Obligations.ReturnUndoesCall := by
  intro s a
  obtain ⟨-, t, hcall, -, hsp, -, -, hmem, -⟩ := jsrPushesAndJumps a s
  obtain ⟨u, hreturn, hpc, hframe⟩ := exec_set_pc_pop t
  refine ⟨t, u, hcall, hreturn, ?_, hframe⟩
  calc u.pc
      = t.readMem t.sp := hpc
    _ = s.pc + BitVec.ofNat 16 (1 + a.trailing.length) := by rw [hmem, if_pos hsp]
    _ = s.pc + BitVec.ofNat 16 (encode (.jsr a)).length := by rw [length_encode]; rfl

end Sys2Proof.Claims
end

section
/-! SUPPORT. The host's operations: what reset leaves of a state, and the canonical form of both memories through a
load, a reset and a run (70_reset_and_hazards.md R230 to R235, log entry 1). -/

namespace Sys2Proof.Machine

/-! ### Reset (R230) -/

@[simp] theorem State.hostReset_readReg (s : State) (r : Reg) : s.hostReset.readReg r = 0 := by
  cases r with
  | gen g => cases g <;> rfl
  | sp => rfl
  | pc => rfl
  | ex => rfl

@[simp] theorem State.hostReset_mem (s : State) : s.hostReset.mem = s.img := rfl
@[simp] theorem State.hostReset_img (s : State) : s.hostReset.img = s.img := rfl
@[simp] theorem State.hostReset_cycles (s : State) : s.hostReset.cycles = 0 := rfl
@[simp] theorem State.hostReset_skip (s : State) : s.hostReset.skip = false := rfl
@[simp] theorem State.hostReset_litWrite (s : State) : s.hostReset.litWrite = s.litWrite := rfl

/-- Reset keeps nothing of a state but the snapshot and the parameter LIT_WRITE (R230). -/
theorem State.hostReset_congr {s s' : State} (himg : s.img = s'.img) (hlit : s.litWrite = s'.litWrite) :
    s.hostReset = s'.hostReset := by
  rw [State.hostReset, State.hostReset, himg, hlit]

/-! ### What is kept -/

theorem State.hostReset_wf {s : State} (w : s.wf = true) : s.hostReset.wf = true := by
  obtain ⟨-, wimg⟩ := s.wf_iff.mp w
  exact s.hostReset.wf_iff.mpr ⟨wimg, wimg⟩

/-- A load puts a list of at most 65536 words into both memories, or leaves the state alone (R231, R232). -/
theorem State.loadImage_wf {s : State} (bytes : List Byte) (w : s.wf = true) : (s.loadImage bytes).wf = true := by
  cases hread : readImage bytes with
  | error e =>
    rw [s.loadImage_of_error hread]
    exact w
  | ok ws =>
    obtain ⟨-, hfits⟩ := readImage_ok hread
    have wwords : (Memory.ofWords 0 ws).wf = true := Memory.wf_ofWords ws hfits
    rw [s.loadImage_of_ok hread]
    exact (s.loadWords ws).wf_iff.mpr ⟨wwords, wwords⟩

/-- What every step keeps, a run of any length keeps: it leaves the state of its last step, or its first one (R136). -/
theorem runFor_state_of_step {P : State → Prop} (hstep : ∀ s t, P s → step s = .next t → P t) (n : Nat) {s : State}
    (h : P s) : P (runFor n s).state := by
  induction n generalizing s with
  | zero => exact h
  | succ n ih =>
    rcases specOutcome_cases s with ⟨hout, -⟩ | ⟨hout, -⟩ | ⟨t, hout, -, hnext⟩
    · rw [runFor_of_halt hout]
      exact h
    · rw [runFor_of_fault hout]
      exact h
    · rw [runFor_of_next hout]
      exact ih (hstep s t h hnext)

/-- What every host operation keeps, a session of any length keeps (R235). -/
theorem hostSession_of_apply {P : State → Prop} (hop : ∀ (op : HostOp) (s : State), P s → P (op.apply s))
    (ops : List HostOp) {s : State} (h : P s) : P (hostSession ops s) := by
  induction ops generalizing s with
  | nil => exact h
  | cons op ops ih => exact ih (hop op s h)

end Sys2Proof.Machine
end

section
/-! PROOFS. The statements of 70_reset_and_hazards.md: reset, launch, and sessions of the host. -/

namespace Sys2Proof.Claims
open Sys2Proof.Machine

/-- A run is made of steps, and every step keeps the canonical form (O42). -/
theorem runFor_state_wf (n : Nat) {s : State} (w : s.wf = true) : (runFor n s).state.wf = true :=
  runFor_state_of_step (P := fun s => s.wf = true) stepKeepsCanonicalMemory n w

/-- Every operation of the host keeps the canonical form (R234). -/
theorem hostOp_apply_wf (op : HostOp) (s : State) (w : s.wf = true) : (op.apply s).wf = true := by
  cases op with
  | loadImage bytes => exact State.loadImage_wf bytes w
  | reset => exact State.hostReset_wf w
  | step => exact runFor_state_wf 1 w
  | start n => exact runFor_state_wf n w
  | stop | readRegister r | readMemoryCell addr | getCycleCount | isRunning => exact w

/-- Settles O44: each operation keeps the canonical form (`hostOp_apply_wf`), so a session does. -/
theorem hostSessionKeepsCanonicalMemory : Obligations.HostSessionKeepsCanonicalMemory := by
  intro ops s w
  exact hostSession_of_apply (P := fun s => s.wf = true) hostOp_apply_wf ops w

/-- Settles O59: of the loaded state reset keeps the snapshot, which is the image whatever state it was loaded into, and
LIT_WRITE, which a load does not change. -/
theorem launchForgetsThePast : Obligations.LaunchForgetsThePast := by
  intro s s' ws hlit hfits
  have himg : (s.loadWords ws).img = (s'.loadWords ws).img := rfl
  have hlit' : (s.loadWords ws).litWrite = (s'.loadWords ws).litWrite := hlit
  calc s.launch (bytesOfWords ws)
      = (s.loadWords ws).hostReset := by rw [State.launch, s.loadImage_bytesOfWords hfits]
    _ = (s'.loadWords ws).hostReset := State.hostReset_congr himg hlit'
    _ = s'.launch (bytesOfWords ws) := by rw [State.launch, s'.loadImage_bytesOfWords hfits]

/-- Settles O58, field by field: a read of restored memory is a read of the snapshot. -/
theorem resetRestoresTheImage : Obligations.ResetRestoresTheImage := by
  intro s
  refine ⟨s.hostReset_readReg, fun x => ?_, s.hostReset_img, s.hostReset_cycles, s.hostReset_skip, s.hostReset_litWrite⟩
  rw [State.readMem, s.hostReset_mem]

end Sys2Proof.Claims
end
